-- ==== Sys2Proof/Word.lean ====
section
/-! DEFINITION. The two word types of the block: the byte that RAW and SHEET hold (spec R7) and the 64-bit command word
(spec R56). No arithmetic stands here; bit and byte helpers stand in `Sys2Proof/Machine/Ops.lean` and `Sys2Proof/Decode.lean`. -/

namespace Sys2Proof

/-- One element of RAW or of SHEET: 8 bits, unsigned (R7). -/
abbrev Byte := BitVec 8

/-- One command word as the command port receives it: 64 bits (R56). -/
abbrev CmdWord := BitVec 64

end Sys2Proof
end

