-- ==== Sys2Proof/Config.lean ====
section
/-! DEFINITION. What is fixed for one block: the geometry of R5 and the capacity parameter of R6. -/

namespace Sys2Proof.Config

/-- `MAX_RAW_BYTES`, the largest RAW region the block holds (R6, D13). The spec leaves it OPEN ("the model takes it as an
argument"), so it has no body here: a claim about the model holds for every capacity. See notes/assumptions/1.md. -/
opaque maxRawBytes : Nat

/-- `TILE_BYTES`: bytes of one tile (R5, R38). -/
@[simp] abbrev tileBytes : Nat := 16

/-- `PLANE_GAP`: distance from a low-plane byte to its high-plane byte (R5, R38). -/
@[simp] abbrev planeGap : Nat := 8

/-- `TILE_ROWS`: pixel-rows of one tile (R5). -/
@[simp] abbrev tileRows : Nat := 8

/-- `TILE_COLS`: pixels of one row of one tile (R5). -/
@[simp] abbrev tileCols : Nat := 8

/-- `TILES_PER_ROW`: tiles side by side in one tile-row (R5). -/
@[simp] abbrev tilesPerRow : Nat := 16

/-- `TILE_ROW_BYTES`: source bytes of one tile-row (R5, R39), also the granularity of every region size (R46). -/
@[simp] abbrev tileRowBytes : Nat := 256

/-- `CANVAS_WIDTH`: pixels of one canvas row (R5, R17). -/
@[simp] abbrev canvasWidth : Nat := 128

/-- `BPP`: bits of one color index, one from each plane (R5). -/
@[simp] abbrev bpp : Nat := 2

/-- `EXPANSION`: sheet elements one source byte yields (R5, R44). -/
@[simp] abbrev expansion : Nat := 4

end Sys2Proof.Config
end

