-- ==== Sys2Proof/Machine/State.lean ====
section
/-! DEFINITION. The block's state (R12), the host operations of R26, the fault codes of R18, and why a step can stop. -/

namespace Sys2Proof.Machine

/-- The operations of the host port (R26). Each is one atomic step (R47). -/
inductive HostOp where
  /-- HOST_LOAD_RAW(b) (R27). -/
  | loadRaw (b : List Byte)
  /-- HOST_LOAD_SHEET(e) (R28). -/
  | loadSheet (e : List Byte)
  /-- HOST_READ (R29). -/
  | read
  /-- HOST_ISSUE(w) (R30). -/
  | issue (w : CmdWord)
  /-- HOST_RESET (R31). -/
  | reset
deriving DecidableEq, Repr

/-- What HOST_READ returns: the value of every field of R12 (R29). -/
structure Readout where
  raw : List Byte
  sheet : List Byte
  rawLen : Nat
  sheetLen : Nat
  fault : BitVec 8
  faultCmd : CmdWord
  ci : Nat
deriving DecidableEq, Repr

/-- The four causes of a fault (R82). The codes are in `Sys2Proof/Machine/Flags.lean`. -/
inductive FaultCode where
  /-- R83. -/
  | illegalCommand
  /-- R84. -/
  | invalidSize
  /-- R85. -/
  | sheetTooShort
  /-- R86. -/
  | bounds
deriving DecidableEq, Repr

/-- Why the MODEL stops. These are not the block's faults (R82), which are taken as next states: they mark an access the spec
gives no meaning (R11, R37) and says no command performs. Safe: the model stops where the spec is silent. -/
inductive Fault where
  /-- DECODE's unit asked for a RAW byte at an address not below RAW_LEN (R37). -/
  | noRawByte
  /-- ENCODE's unit asked for a SHEET element at an index not below SHEET_LEN, or for a place outside the new RAW (R37). -/
  | noSheetElement
  /-- WRPIX asked to write a SHEET element at an index not below SHEET_LEN (R37). -/
  | noPixel
deriving DecidableEq, Repr

/-- Why the model gives no step. -/
inductive Refusal where
  /-- An arm of `exec` without a meaning; no arm of this model answers it. Safe. -/
  | notModelled (mnemonic : String)
  /-- HOST_LOAD_RAW or HOST_LOAD_SHEET of more than the block holds: "a model gives it no step" (R27, R28, I11). Safe. -/
  | loadTooLong
deriving DecidableEq, Repr

/-- One block and the host's side of its port. The first five fields are R12's, whole; RAW_LEN and SHEET_LEN are the lengths
of the two lists (R14, R16). The last two are the MODEL's own (notes/assumptions/2.md): the operations the host has yet to
perform, which are inputs and not the block's state (R12), and what its reads have returned. -/
structure State where
  /-- RAW (R13): the byte at position `a` is address `a` (R35). -/
  raw : List Byte
  /-- SHEET (R15): the element at position `i` is index `i` (R36). -/
  sheet : List Byte
  /-- FAULT (R18). -/
  fault : BitVec 8
  /-- FAULT_CMD (R19). -/
  faultCmd : CmdWord
  /-- CI (R20), unbounded. -/
  ci : Nat
  /-- Host's side: the operations to come, the next one first. -/
  hostOps : List HostOp
  /-- Host's side: what HOST_READ has returned, oldest first. -/
  readouts : List Readout
deriving DecidableEq, Repr

/-- The block right after power-on (R33, R100), with a host that has asked for nothing. -/
def State.reset : State where
  raw := []
  sheet := []
  fault := 0x00#8
  faultCmd := 0#64
  ci := 0
  hostOps := []
  readouts := []

end Sys2Proof.Machine
end

