-- ==== Sys2Proof/Machine/Operands.lean ====
section
/-! DEFINITION. Address formation: where a pixel and a group of 8 pixels stand in SHEET, where a pair of plane bytes stands in
RAW, and in which order each unit visits the groups. All on natural numbers; nothing wraps (R10). Operands themselves are fields
of the command word (R21), read by `Sys2Proof/Decode.lean`. -/

namespace Sys2Proof.Machine

open Sys2Proof.Config

/-- The SHEET element of column `x`, row `y` (R40). -/
def pixelIndex (x y : Nat) : Nat := y * canvasWidth + x

/-- The RAW address of the low-plane byte of tile-row `k`, pixel-row `r`, tile-column `c` (R43, R69, R75). -/
def lowPlaneAddr (k r c : Nat) : Nat := c * tileBytes + r + tileRowBytes * k

/-- The RAW address of the high-plane byte beside it (R38). -/
def highPlaneAddr (k r c : Nat) : Nat := lowPlaneAddr k r c + planeGap

/-- The number of an 8-pixel group; it spans the SHEET elements from 8 times this number up (R75). -/
def groupOffset (k r c : Nat) : Nat := c + r * tilesPerRow + k * canvasWidth

/-- One 8-pixel group: tile-row, pixel-row in the tile, tile-column. -/
structure Group where
  k : Nat
  r : Nat
  c : Nat
deriving DecidableEq, Repr

/-- The de-interleaver's order over `n` bytes: tile-row, then pixel-row, then tile-column (R69). -/
def decodeOrder (n : Nat) : List Group :=
  (List.range (n / tileRowBytes)).flatMap fun k =>
    (List.range tileRows).flatMap fun r =>
      (List.range tilesPerRow).map fun c => ⟨k, r, c⟩

/-- The interleaver's order over `size` bytes: tile-row, then tile-column, then pixel-row (R75, C4). -/
def encodeOrder (size : Nat) : List Group :=
  (List.range (size / tileRowBytes)).flatMap fun k =>
    (List.range tilesPerRow).flatMap fun c =>
      (List.range tileRows).map fun r => ⟨k, r, c⟩

end Sys2Proof.Machine
end

