-- ==== Sys2Proof/Syntax.lean ====
section
/-! DEFINITION. The block's commands, one constructor per row of spec/opcode_table.json, with the operands R62 gives each:
SIZE, X and Y zero-extended to natural numbers, V as its 8 bits. Host operations are not commands and have no encoding (R66);
they stand in `Sys2Proof/Machine/State.lean`. -/

namespace Sys2Proof

/-- A command as the decoder of R62 yields it. -/
inductive Instr where
  /-- DECODE: de-interleave the whole of RAW into a fresh SHEET (R57, R71). -/
  | decode
  /-- ENCODE SIZE: rebuild `size` bytes of RAW from SHEET (R58, R77). -/
  | encode (size : Nat)
  /-- WRPIX X, Y, V: store `v` at column `x`, row `y` of SHEET (R59, R72). -/
  | wrpix (x y : Nat) (v : Byte)
deriving DecidableEq, Repr

end Sys2Proof
end

