-- ==== Sys2Proof/WellFormed.lean ====
section
/-! DEFINITION. Which commands a command word can spell: each operand fits its field (R58, R59). These are the ranges the
assembler checks (R65); the canvas width, the multiple-of-256 rule and the sheet length are execution faults and are not
checked here (R58, R59, R65). -/

namespace Sys2Proof

/-- SIZE fits bits [39:8] (R58). -/
def sizeFits (size : Nat) : Bool := decide (size < 2 ^ 32)

/-- X fits bits [15:8] (R59). -/
def columnFits (x : Nat) : Bool := decide (x < 2 ^ 8)

/-- Y fits bits [39:16] (R59). -/
def rowFits (y : Nat) : Bool := decide (y < 2 ^ 24)

/-- The command has an encoding: every operand fits its field (R57 to R59, I9). -/
def Instr.wellFormed : Instr → Bool
  | .decode => true
  | .encode size => sizeFits size
  | .wrpix x y _ => columnFits x && rowFits y

end Sys2Proof
end

