-- ==== Sys2Proof/Decode.lean ====
section
/-! DEFINITION. The decoder of R62, total on every 64-bit word and, through the little-endian layout of R64, on every byte
list; then the encoder, written from the field tables of R57 to R59. Neither reads RAW, SHEET or a register. -/

namespace Sys2Proof

/-- Why bits spell no command. -/
inductive IllegalReason where
  /-- OP is 0x00 or 0x04..0xFF (R60). -/
  | reservedOpcode
  /-- OP is 0x01..0x03 and a reserved bit of its format is set (R61). -/
  | reservedBits
  /-- A byte list ends before the 8 bytes of a word; only `decodeBytes` says so (R56: there is one length, 64 bits). -/
  | truncated
deriving DecidableEq, Repr

/-- What a word decodes to: exactly one of the commands, or ILLEGAL with its reason (R62). -/
inductive Decoded where
  | command (i : Instr)
  | illegal (why : IllegalReason)
deriving DecidableEq, Repr

/-- OP, bits [7:0] (R56). -/
def opField (w : CmdWord) : BitVec 8 := w.extractLsb' 0 8

/-- Opcode values (R60). -/
def opDecode : BitVec 8 := 0x01#8
@[inherit_doc opDecode] def opEncode : BitVec 8 := 0x02#8
@[inherit_doc opDecode] def opWrpix : BitVec 8 := 0x03#8

/-- Bits [63:8], reserved in format F_NONE (R57). -/
def reservedNone (w : CmdWord) : BitVec 56 := w.extractLsb' 8 56

/-- Bits [63:40], reserved in format F_SIZE (R58). -/
def reservedSize (w : CmdWord) : BitVec 24 := w.extractLsb' 40 24

/-- Bits [63:48], reserved in format F_PIX (R59). -/
def reservedPix (w : CmdWord) : BitVec 16 := w.extractLsb' 48 16

/-- SIZE, bits [39:8] (R58). -/
def sizeField (w : CmdWord) : BitVec 32 := w.extractLsb' 8 32

/-- X, bits [15:8] (R59). -/
def xField (w : CmdWord) : BitVec 8 := w.extractLsb' 8 8

/-- Y, bits [39:16] (R59). -/
def yField (w : CmdWord) : BitVec 24 := w.extractLsb' 16 24

/-- V, bits [47:40] (R59). -/
def vField (w : CmdWord) : Byte := w.extractLsb' 40 8

/-- The decoder (R60 to R62). Reserved bits are never ignored (R61). -/
def decodeWord (w : CmdWord) : Decoded :=
  if opField w = opDecode then
    if reservedNone w = 0 then .command .decode else .illegal .reservedBits
  else if opField w = opEncode then
    if reservedSize w = 0 then .command (.encode (sizeField w).toNat) else .illegal .reservedBits
  else if opField w = opWrpix then
    if reservedPix w = 0 then .command (.wrpix (xField w).toNat (yField w).toNat (vField w))
    else .illegal .reservedBits
  else .illegal .reservedOpcode

/-- The number a little-endian byte list stands for: byte 0 is the least significant (R64). -/
def leNat : List Byte → Nat
  | [] => 0
  | b :: bs => b.toNat + 256 * leNat bs

/-- The first word of a byte stream, and the rest of the stream (R64). -/
def wordOfBytes (bs : List Byte) : Option (CmdWord × List Byte) :=
  if 8 ≤ bs.length then some (BitVec.ofNat 64 (leNat (bs.take 8)), bs.drop 8) else none

/-- A word as the 8 bytes of a command stream: byte 0 is bits [7:0], byte 7 is bits [63:56] (R64). -/
def bytesOfWord (w : CmdWord) : List Byte :=
  [0, 1, 2, 3, 4, 5, 6, 7].map fun j => w.extractLsb' (8 * j) 8

/-- The decoder on a command stream written as bytes: the first word's meaning and the bytes after it. -/
def decodeBytes (bs : List Byte) : Decoded × List Byte :=
  match wordOfBytes bs with
  | some (w, rest) => (decodeWord w, rest)
  | none => (.illegal .truncated, bs)

/-- A word of the opcode table: bit 0 of `w` is bit 0 of the word, and every bit from `nbits` up is 0. -/
def tableWord (nbits w : Nat) : CmdWord := BitVec.ofNat 64 (w % 2 ^ nbits)

/-- What the decoder reads from a table row's bits, laid out as the bytes of R64. A word has 64 bits and no more (R56). -/
def decodeTableWord (nbits w : Nat) : Option Instr :=
  if nbits ≤ 64 then
    match (decodeBytes (bytesOfWord (tableWord nbits w))).1 with
    | .command i => some i
    | .illegal _ => none
  else none

/-- The encoder, from the field tables of R57 to R59, high bits first: reserved zeros, operands, OP. On a well-formed command
no operand bit is lost; an operand wider than its field has no encoding (I9) and would be cut to it here. -/
def encode : Instr → CmdWord
  | .decode => 0#56 ++ opDecode
  | .encode size => 0#24 ++ BitVec.ofNat 32 size ++ opEncode
  | .wrpix x y v => 0#16 ++ v ++ BitVec.ofNat 24 y ++ BitVec.ofNat 8 x ++ opWrpix

/-- The mask and match of a command's row of the opcode map (R60, spec/opcode_table.json). -/
def Instr.rowMask : Instr → CmdWord
  | .decode => 0xFFFFFFFFFFFFFFFF#64
  | .encode _ => 0xFFFFFF00000000FF#64
  | .wrpix _ _ _ => 0xFFFF0000000000FF#64

@[inherit_doc Instr.rowMask] def Instr.rowMatch : Instr → CmdWord
  | .decode => 0x0000000000000001#64
  | .encode _ => 0x0000000000000002#64
  | .wrpix _ _ _ => 0x0000000000000003#64

end Sys2Proof
end

