-- ==== Sys2Proof/Machine/Ops.lean ====
section
/-! DEFINITION. The operations the meanings share: access to a buffer (R11, R35 to R37, R47), replacing one, completing a
command (R20), taking a fault (R88) and the one way back from it (R90, R100). -/

namespace Sys2Proof.Machine

/-- RAW_LEN (R14). -/
def State.rawLen (s : State) : Nat := s.raw.length

/-- SHEET_LEN (R16). -/
def State.sheetLen (s : State) : Nat := s.sheet.length

/-- `RAW[a]` or `SHEET[a]`: defined only below the buffer's length (R11, R37). No read has a side effect (R48). -/
def readBuf (b : List Byte) (a : Nat) : Option Byte := b[a]?

/-- Write one element; defined only below the buffer's length (R37). Only the addressed element changes (R48). -/
def writeBuf (b : List Byte) (a : Nat) (v : Byte) : Option (List Byte) :=
  if a < b.length then some (b.set a v) else none

/-- `n` elements from address `a` up. -/
def readSpan (b : List Byte) (a : Nat) : Nat → Option (List Byte)
  | 0 => some []
  | n + 1 =>
    match readBuf b a with
    | none => none
    | some e =>
      match readSpan b (a + 1) n with
      | none => none
      | some es => some (e :: es)

/-- Bit `b` of a byte, `(v >> b) & 1` on natural numbers (R9, R10). -/
def bitOf (v : Byte) (b : Nat) : Nat := (v.toNat >>> b) &&& 1

/-- `RAW <- b`: contents and length at once (R11, R14). -/
def State.replaceRaw (s : State) (b : List Byte) : State := { s with raw := b }

/-- `SHEET <- e`: contents and length at once (R11, R16). -/
def State.replaceSheet (s : State) (e : List Byte) : State := { s with sheet := e }

/-- `CI <- CI + 1`: a command has completed (R20). -/
def State.complete (s : State) : State := { s with ci := s.ci + 1 }

/-- The value FAULT takes for each cause (R18). -/
def FaultCode.code : FaultCode → BitVec 8
  | .illegalCommand => 0x01#8
  | .invalidSize => 0x02#8
  | .sheetTooShort => 0x03#8
  | .bounds => 0x04#8

/-- Fault entry (R88): FAULT and FAULT_CMD are written and nothing else. -/
def State.raiseFault (s : State) (f : FaultCode) (w : CmdWord) : State :=
  { s with fault := f.code, faultCmd := w }

/-- The block is halted (R89). -/
def State.halted (s : State) : Bool := s.fault != 0x00#8

/-- Reset of the block (R100), the only way out of the halted state (R90): every field of R12 takes its value of R33. What the
host has yet to do, and what it has read, is the host's and stays. -/
def State.resetBlock (s : State) : State :=
  { State.reset with hostOps := s.hostOps, readouts := s.readouts }

/-- The values HOST_READ returns (R29), all of R12's fields. -/
def State.readout (s : State) : Readout where
  raw := s.raw
  sheet := s.sheet
  rawLen := s.rawLen
  sheetLen := s.sheetLen
  fault := s.fault
  faultCmd := s.faultCmd
  ci := s.ci

end Sys2Proof.Machine
end

