-- ==== Sys2Proof/Machine/Flags.lean ====
section
/-! DEFINITION. The block has no flags and no condition codes (R22); the only status a command leaves is FAULT. This file holds
the conditions that decide it, in the order of R87. Every check comes before the first access (R88). -/

namespace Sys2Proof.Machine

open Sys2Proof.Config

/-- A region size is valid when it is a multiple of 256, 0 included (R84, D5). -/
def sizeValid (n : Nat) : Bool := n % tileRowBytes == 0

/-- The fault of DECODE on a RAW of `rawLen` bytes, if any (R71, R84). -/
def decodeStatus (rawLen : Nat) : Option FaultCode :=
  if sizeValid rawLen then none else some .invalidSize

/-- The fault of ENCODE `size` on a SHEET of `sheetLen` elements, if any: the size's form first (R77, R84, R85, R87). -/
def encodeStatus (size sheetLen : Nat) : Option FaultCode :=
  if sizeValid size then
    if expansion * size > sheetLen then some .sheetTooShort else none
  else some .invalidSize

/-- The fault of WRPIX at column `x`, row `y` of a SHEET of `sheetLen` elements, if any. A column of 128 or more is outside the
canvas even where the element would exist (R72, R86, D7). -/
def wrpixStatus (x y sheetLen : Nat) : Option FaultCode :=
  if x ≥ canvasWidth ∨ pixelIndex x y ≥ sheetLen then some .bounds else none

end Sys2Proof.Machine
end

