-- ==== Sys2Proof/Machine/Deinterleave.lean ====
section
/-! DEFINITION. The tile bitplane combiner (R67), the de-interleaver (R69) and DECODE (R71). -/

namespace Sys2Proof.Machine

/-- The combiner: one color index from bit `b` of each plane byte, zero-extended to 8 bits (R67). -/
def combine (lo hi : Byte) (b : Nat) : Byte := BitVec.ofNat 8 (bitOf lo b + 2 * bitOf hi b)

/-- The combiner over a pair of plane bytes: lane `j`, 0 the leftmost pixel, takes bit `7 - j` (R41, R67). -/
def combine8 (lo hi : Byte) : List Byte := [7, 6, 5, 4, 3, 2, 1, 0].map (combine lo hi)

/-- The 8 pixels of one group, from the two plane bytes the traversal reads for it (R69). -/
def emitGroup (raw : List Byte) (g : Group) : Option (List Byte) :=
  match readBuf raw (lowPlaneAddr g.k g.r g.c), readBuf raw (highPlaneAddr g.k g.r g.c) with
  | some lo, some hi => some (combine8 lo hi)
  | _, _ => none

/-- The pixels of the groups in the order given. Appending is the implicit write cursor (R24, R69): each pixel stands right
after the one before it. -/
def deinterleaveOver (raw : List Byte) : List Group → Option (List Byte)
  | [] => some []
  | g :: rest =>
    match emitGroup raw g with
    | none => none
    | some px =>
      match deinterleaveOver raw rest with
      | none => none
      | some more => some (px ++ more)

/-- The de-interleaver over the first `n` bytes of RAW (R69). -/
def deinterleave (raw : List Byte) (n : Nat) : Option (List Byte) := deinterleaveOver raw (decodeOrder n)

/-- DECODE (R71). -/
def execDecode (s : State) : Host.Outcome State Fault Refusal :=
  match decodeStatus s.rawLen with
  | some f => .next (s.raiseFault f (encode .decode))
  | none =>
    match deinterleave s.raw s.rawLen with
    | none => .fault .noRawByte
    | some e => .next (s.replaceSheet e).complete

end Sys2Proof.Machine
end

