-- ==== Sys2Proof/Machine/Interleave.lean ====
section
/-! DEFINITION. The tile bitplane splitter (R73), the interleaver (R75) and ENCODE (R77). -/

namespace Sys2Proof.Machine

open Sys2Proof.Config

/-- One step of an 8-bit accumulator: shift left, take the bit in at the bottom, drop what leaves bit 7 (R73, D25). -/
def shiftIn (acc : Byte) (bit : Nat) : Byte := BitVec.ofNat 8 (((acc.toNat <<< 1) ||| bit) &&& 0xFF)

/-- One element into the two accumulators: bit 0 into the low plane, bit 1 into the high plane (R73). -/
def splitStep (acc : Byte × Byte) (e : Byte) : Byte × Byte :=
  (shiftIn acc.1 (bitOf e 0), shiftIn acc.2 (bitOf e 1))

/-- The splitter from any start of its accumulators, over elements in left-to-right order (R73). -/
def getPlaneFrom (start : Byte × Byte) (es : List Byte) : Byte × Byte := es.foldl splitStep start

/-- The splitter: both accumulators start at 0 (R73, D25). -/
def getPlane (es : List Byte) : Byte × Byte := getPlaneFrom (0#8, 0#8) es

/-- One group of the interleaver: the 8 elements of the group, split, and each plane byte to its place (R75). -/
def placeGroup (sheet : List Byte) (g : Group) (out : List Byte) : Option (List Byte) :=
  match readSpan sheet (8 * groupOffset g.k g.r g.c) tileCols with
  | none => none
  | some es =>
    match writeBuf out (lowPlaneAddr g.k g.r g.c) (getPlane es).1 with
    | none => none
    | some out' => writeBuf out' (highPlaneAddr g.k g.r g.c) (getPlane es).2

/-- The groups placed one after another, in the order given, into the region `out`. -/
def interleaveInto (sheet : List Byte) : List Group → List Byte → Option (List Byte)
  | [], out => some out
  | g :: rest, out =>
    match placeGroup sheet g out with
    | none => none
    | some out' => interleaveInto sheet rest out'

/-- The interleaver: a new region of `size` bytes (R75). Every byte of it is written (R76), so the zeros it is made of before
that do not reach the result (I13, notes/assumptions/4.md). -/
def interleave (sheet : List Byte) (size : Nat) : Option (List Byte) :=
  interleaveInto sheet (encodeOrder size) (List.replicate size 0#8)

/-- ENCODE (R77). -/
def execEncode (size : Nat) (s : State) : Host.Outcome State Fault Refusal :=
  match encodeStatus size s.sheetLen with
  | some f => .next (s.raiseFault f (encode (.encode size)))
  | none =>
    match interleave s.sheet size with
    | none => .fault .noSheetElement
    | some b => .next (s.replaceRaw b).complete

end Sys2Proof.Machine
end

