-- ==== Sys2Proof/Machine/PixelWrite.lean ====
section
/-! DEFINITION. The single-pixel write, WRPIX (R72). -/

namespace Sys2Proof.Machine

/-- WRPIX: store `v` as given, without clamp or mask, at column `x`, row `y` (R72). -/
def execWrpix (x y : Nat) (v : Byte) (s : State) : Host.Outcome State Fault Refusal :=
  match wrpixStatus x y s.sheetLen with
  | some f => .next (s.raiseFault f (encode (.wrpix x y v)))
  | none =>
    match writeBuf s.sheet (pixelIndex x y) v with
    | none => .fault .noPixel
    | some e => .next (s.replaceSheet e).complete

end Sys2Proof.Machine
end

