-- ==== Sys2Proof/Machine/Dispatch.lean ====
section
/-! DEFINITION. The meaning of each command of spec/opcode_table.json. -/

namespace Sys2Proof.Machine

def exec (i : Instr) (s : State) : Host.Outcome State Fault Refusal :=
  match i with
  | .decode => Sys2Proof.Machine.execDecode s
  | .encode size => Sys2Proof.Machine.execEncode size s
  | .wrpix x y v => Sys2Proof.Machine.execWrpix x y v s

end Sys2Proof.Machine
end

