-- ==== Sys2Proof/Machine/HostPort.lean ====
section
/-! DEFINITION. The operations of the host port (R26 to R31), each one atomic step. -/

namespace Sys2Proof.Machine

open Sys2Proof.Config

/-- HOST_LOAD_RAW(b): any contents up to the capacity, halted or not; beyond it no step (R27). -/
def hostLoadRaw (b : List Byte) (s : State) : Host.Outcome State Fault Refusal :=
  if b.length ≤ maxRawBytes then .next (s.replaceRaw b) else .refused .loadTooLong

/-- HOST_LOAD_SHEET(e): any contents up to four times the capacity, halted or not; beyond it no step (R28). -/
def hostLoadSheet (e : List Byte) (s : State) : Host.Outcome State Fault Refusal :=
  if e.length ≤ expansion * maxRawBytes then .next (s.replaceSheet e) else .refused .loadTooLong

/-- HOST_READ: the host is given every field of R12; none changes (R29). -/
def hostRead (s : State) : Host.Outcome State Fault Refusal :=
  .next { s with readouts := s.readouts ++ [s.readout] }

/-- A decoded word executed: a command has its meaning, an illegal word faults at once (R30, R83). -/
def issueDecoded (w : CmdWord) (s : State) : Host.Outcome State Fault Refusal :=
  match decodeWord w with
  | .command i => exec i s
  | .illegal _ => .next (s.raiseFault .illegalCommand w)

/-- HOST_ISSUE(w): executed when FAULT is 0x00 (R30); otherwise no field changes and the word is not decoded (R89, I21). -/
def hostIssue (w : CmdWord) (s : State) : Host.Outcome State Fault Refusal :=
  if s.halted then .next s else issueDecoded w s

/-- HOST_RESET, in every state (R31, R100). -/
def hostReset (s : State) : Host.Outcome State Fault Refusal := .next s.resetBlock

/-- One host operation. -/
def perform (op : HostOp) (s : State) : Host.Outcome State Fault Refusal :=
  match op with
  | .loadRaw b => hostLoadRaw b s
  | .loadSheet e => hostLoadSheet e s
  | .read => hostRead s
  | .issue w => hostIssue w s
  | .reset => hostReset s

/-- Take the host's next operation off the port and perform it; with none to come the block is idle and keeps all of its
state (R99). The operations form one total order, each seeing the effects of the earlier ones (R51). -/
def serveHost (s : State) : Host.Outcome State Fault Refusal :=
  match s.hostOps with
  | [] => .next s
  | op :: rest => perform op { s with hostOps := rest }

/-- `s` with one more operation before all the others the host has in mind. -/
def State.withNextOp (s : State) (op : HostOp) : State := { s with hostOps := op :: s.hostOps }

end Sys2Proof.Machine
end

