-- ==== Sys2Proof/Machine/Step.lean ====
section
/-! DEFINITION. One step of the machine: one host operation (R47, R51), or idling. -/

namespace Sys2Proof.Machine

/-- One step. -/
def step (s : State) : Host.Outcome State Fault Refusal := serveHost s

/-- `s` with a command word as the next word HOST_ISSUE presents (R30), so that the next step of a block that is not halted
decodes and runs it. A word is not fetched from any memory (R54): the port is where commands come from. -/
def State.withFetchWord (s : State) (nbits w : Nat) : State := s.withNextOp (.issue (tableWord nbits w))

end Sys2Proof.Machine
end

