-- ==== Sys2Proof/Machine/Assembler.lean ====
section
/-! DEFINITION. The assembler of R65 and the listing lines of R66, on one line given as its characters. An accepted command line
becomes the word it spells, presented by HOST_ISSUE; `host.` lines become host operations, which have no encoding. What the
spec leaves open here (blanks, the case of hexadecimal digits, how a byte list is written) is in notes/assumptions/7.md. -/

namespace Sys2Proof.Machine

/-- What a line comes to. -/
inductive AsmLine where
  /-- Nothing but blanks and a comment. -/
  | empty
  /-- One host operation. -/
  | emits (op : HostOp)
  /-- A syntax error; no word is encoded (R65). -/
  | rejected
deriving DecidableEq, Repr

/-- Everything before the first "; " (R65). -/
def stripComment : List Char → List Char
  | [] => []
  | ';' :: ' ' :: _ => []
  | c :: cs => c :: stripComment cs

/-- A blank between tokens. -/
def isBlank (c : Char) : Bool := c == ' ' || c == '\t' || c == '\r' || c == '\n'

/-- The finished token, if there is one, before the tokens after it; `acc` is the token so far, reversed. -/
def closeToken (acc : List Char) (rest : List (List Char)) : List (List Char) :=
  match acc with
  | [] => rest
  | _ => acc.reverse :: rest

/-- Tokens of a line: blanks end a token, a comma is a token of its own. -/
def tokensFrom (acc : List Char) : List Char → List (List Char)
  | [] => closeToken acc []
  | c :: cs =>
    if isBlank c then closeToken acc (tokensFrom [] cs)
    else if c == ',' then closeToken acc ([','] :: tokensFrom [] cs)
    else tokensFrom (c :: acc) cs

/-- The value of one digit in a base up to 16. -/
def digitOf (base : Nat) (c : Char) : Option Nat :=
  let n := c.toNat
  let d := if 48 ≤ n ∧ n ≤ 57 then n - 48
    else if 97 ≤ n ∧ n ≤ 102 then n - 87
    else if 65 ≤ n ∧ n ≤ 70 then n - 55
    else base
  if d < base then some d else none

/-- Digits, most significant first, after the value `acc`. -/
def digitsFrom (base : Nat) (acc : Nat) : List Char → Option Nat
  | [] => some acc
  | c :: cs =>
    match digitOf base c with
    | none => none
    | some d => digitsFrom base (base * acc + d) cs

/-- An operand: an unsigned number, decimal, or hexadecimal after `0x` (R65). -/
def parseNumber : List Char → Option Nat
  | [] => none
  | ['0', 'x'] => none
  | '0' :: 'x' :: ds => digitsFrom 16 0 ds
  | ds => digitsFrom 10 0 ds

def kwDecode : List Char := ['D', 'E', 'C', 'O', 'D', 'E']
def kwEncode : List Char := ['E', 'N', 'C', 'O', 'D', 'E']
def kwWrpix : List Char := ['W', 'R', 'P', 'I', 'X']
def kwRead : List Char := ['h', 'o', 's', 't', '.', 'r', 'e', 'a', 'd']
def kwReset : List Char := ['h', 'o', 's', 't', '.', 'r', 'e', 's', 'e', 't']
def kwLoadRaw : List Char := ['h', 'o', 's', 't', '.', 'l', 'o', 'a', 'd', '_', 'r', 'a', 'w']
def kwLoadSheet : List Char := ['h', 'o', 's', 't', '.', 'l', 'o', 'a', 'd', '_', 's', 'h', 'e', 'e', 't']
def kwWord : List Char := ['.', 'w', 'o', 'r', 'd']

/-- A command is assembled when every operand fits its field, and is a syntax error otherwise (R65). -/
def assembleInstr (i : Instr) : AsmLine :=
  if i.wellFormed then .emits (.issue (encode i)) else .rejected

/-- The operands of a line: numbers with a comma between each two (R65). -/
def parseOperands : List (List Char) → Option (List Nat)
  | [] => some []
  | [t] =>
    match parseNumber t with
    | none => none
    | some n => some [n]
  | t :: u :: rest =>
    if u = [','] then
      match parseNumber t, rest with
      | _, [] => none
      | none, _ => none
      | some n, _ =>
        match parseOperands rest with
        | none => none
        | some ns => some (n :: ns)
    else none

/-- Every number as a byte, or none if one of them is 256 or more. -/
def asBytes (ns : List Nat) : Option (List Byte) :=
  if ns.all (fun n => decide (n < 256)) then some (ns.map (BitVec.ofNat 8)) else none

/-- A mnemonic with its operands (R65), a raw word (D22), or a host operation in a listing (R66). -/
def assembleOp (m : List Char) (ns : List Nat) : AsmLine :=
  if m = kwDecode then
    match ns with
    | [] => assembleInstr .decode
    | _ => .rejected
  else if m = kwEncode then
    match ns with
    | [n] => assembleInstr (.encode n)
    | _ => .rejected
  else if m = kwWrpix then
    match ns with
    | [x, y, v] => if v < 256 then assembleInstr (.wrpix x y (BitVec.ofNat 8 v)) else .rejected
    | _ => .rejected
  else if m = kwWord then
    match ns with
    | [n] => if n < 2 ^ 64 then .emits (.issue (BitVec.ofNat 64 n)) else .rejected
    | _ => .rejected
  else if m = kwRead then
    match ns with
    | [] => .emits .read
    | _ => .rejected
  else if m = kwReset then
    match ns with
    | [] => .emits .reset
    | _ => .rejected
  else if m = kwLoadRaw then
    match asBytes ns with
    | some b => .emits (.loadRaw b)
    | none => .rejected
  else if m = kwLoadSheet then
    match asBytes ns with
    | some e => .emits (.loadSheet e)
    | none => .rejected
  else .rejected

/-- The tokens of one line. -/
def assembleTokens : List (List Char) → AsmLine
  | [] => .empty
  | m :: args =>
    match parseOperands args with
    | some ns => assembleOp m ns
    | none => .rejected

/-- One line of a listing (R65, R66). -/
def assembleLine (line : List Char) : AsmLine := assembleTokens (tokensFrom [] (stripComment line))

end Sys2Proof.Machine
end

