-- ==== Sys2Proof/Machine/Layout.lean ====
section
/-! DEFINITION. The pixel-to-source map of R43, both ways, and the buffers seen as (address, byte) cells. No meaning uses this
file: the statements compare the units' loops with it (R70, R76). -/

namespace Sys2Proof.Machine

/-- `aL` of R43: the low-plane byte of SHEET element `i`. -/
def pixelLowAddr (i : Nat) : Nat := 256 * (i / 128 / 8) + 16 * (i % 128 / 8) + i / 128 % 8

/-- `aH` of R43: the high-plane byte of SHEET element `i`. -/
def pixelHighAddr (i : Nat) : Nat := pixelLowAddr i + 8

/-- `b` of R43: the bit of both plane bytes that SHEET element `i` takes. -/
def pixelBit (i : Nat) : Nat := 7 - i % 128 % 8

/-- The value R43 gives SHEET element `i` of the region `raw`; none where a plane byte does not exist. -/
def sourcePixel (raw : List Byte) (i : Nat) : Option Byte :=
  match raw[pixelLowAddr i]?, raw[pixelHighAddr i]? with
  | some lo, some hi =>
    some (BitVec.ofNat 8 ((lo.toNat >>> pixelBit i) % 2 + 2 * ((hi.toNat >>> pixelBit i) % 2)))
  | _, _ => none

/-- The plane of RAW byte `a`, as the bit of a color index it gives: 0 for the low plane, 1 for the high plane (R42, R43). -/
def planeOf (a : Nat) : Nat := if a % 16 < 8 then 0 else 1

/-- The SHEET element that bit `b` of RAW byte `a` belongs to (R43, the converse). -/
def pixelOfBit (a b : Nat) : Nat := (8 * (a / 256) + a % 8) * 128 + 8 * (a % 256 / 16) + (7 - b)

/-- A buffer as cells: every address below its length with its byte (R35, R36), rising. -/
def cellsFrom : Nat → List Byte → List Host.Cell
  | _, [] => []
  | a, b :: bs => (a, b) :: cellsFrom (a + 1) bs

/-- The canonical form of a buffer's cells: the addresses are those from `a` up, each once and in order. An unlisted address
does not exist (R37), so no entry could equal what it reads as. -/
def cellsRiseFrom : Nat → List Host.Cell → Bool
  | _, [] => true
  | a, (a', _) :: cs => (a' == a) && cellsRiseFrom (a + 1) cs

/-- The canonical form of one address space, from address 0. -/
def Memory.wf (m : List Host.Cell) : Bool := cellsRiseFrom 0 m

/-- The RAW address space as cells (R35). -/
def State.rawCells (s : State) : List Host.Cell := cellsFrom 0 s.raw

/-- The SHEET address space as cells (R36). -/
def State.sheetCells (s : State) : List Host.Cell := cellsFrom 0 s.sheet

end Sys2Proof.Machine
end

