-- ==== Sys2Proof/Safety.lean ====
section
/-! DEFINITION. The terms claims are stated in: the invariant of the state, a run of host operations (R107), its normal end, and
the memory contents a claim compares. -/

namespace Sys2Proof.Machine

open Sys2Proof.Config

/-- The bounds R12 gives the buffers' lengths. -/
def State.withinCapacity (s : State) : Prop :=
  s.raw.length ≤ maxRawBytes ∧ s.sheet.length ≤ 4 * maxRawBytes

/-- FAULT holds a legal code: 0x00 to 0x04 (R18, R82, I19). -/
def State.faultLegal (s : State) : Prop := s.fault.toNat ≤ 4

/-- While FAULT is 0x00, FAULT_CMD holds its reset value (R19, I20). -/
def State.faultCmdQuiet (s : State) : Prop := s.fault = 0x00#8 → s.faultCmd = 0#64

/-- What the spec says every reachable state of R12's fields satisfies. -/
structure State.Inv (s : State) : Prop where
  capacity : s.withinCapacity
  faultLegal : s.faultLegal
  faultCmdQuiet : s.faultCmdQuiet

/-- `s` with `ops` as all the host has in mind. -/
def State.withHostOps (s : State) (ops : List HostOp) : State := { s with hostOps := ops }

/-- `k` steps, stopping where the machine does; `core_run_eq` says that it is the host's `Core.run` of this machine. -/
def stepMany : Nat → State → Host.Outcome State Fault Refusal
  | 0, s => .next s
  | k + 1, s =>
    match step s with
    | .next t => stepMany k t
    | .fault r => .fault r
    | .refused r => .refused r

/-- The host operations `ops` performed in order from `s` (R51, R107). -/
def performAll (ops : List HostOp) (s : State) : Host.Outcome State Fault Refusal :=
  stepMany ops.length (s.withHostOps ops)

/-- The operation is HOST_ISSUE. -/
def HostOp.isIssue : HostOp → Bool
  | .issue _ => true
  | .loadRaw _ => false
  | .loadSheet _ => false
  | .read => false
  | .reset => false

/-- A run from reset (R107). -/
def runFromReset (ops : List HostOp) : Host.Outcome State Fault Refusal := performAll ops State.reset

/-- The run has ended normally: nothing is left to do and FAULT is 0x00 (R107). -/
def State.endedNormally (s : State) : Prop := s.hostOps = [] ∧ s.fault = 0x00#8

/-- The next state of an outcome, if it has one. -/
def nextState? (o : Host.Outcome State Fault Refusal) : Option State :=
  match o with
  | .next s => some s
  | .fault _ => none
  | .refused _ => none

end Sys2Proof.Machine
end

