-- ==== Sys2Proof/Certificates/Slice0/Obligations.lean ====
section
/-! DEFINITION. The statements about this block, one per entry of OBLIGATIONS.json, in its order. -/

open Sys2Proof Sys2Proof.Machine

/-! ### Encoding -/

/-- R57 to R59, R62: no operand bit of a well-formed command is dropped. -/
def Obligations.EncodedCommandsDecodeBack : Prop :=
  ∀ i : Instr, i.wellFormed = true → decodeWord (encode i) = .command i

/-- R57 to R62: a word that decodes to a command is the one word of that command, so FAULT_CMD, which a meaning writes as
`encode i`, is the word issued (notes/assumptions/3.md). -/
def Obligations.DecodedWordsEncodeBack : Prop :=
  ∀ (w : CmdWord) (i : Instr), decodeWord w = .command i → i.wellFormed = true ∧ encode i = w

/-- R62: the decoder, with every field written as arithmetic on the word read as a number. -/
def Obligations.DecoderReadsEveryField : Prop :=
  ∀ w : CmdWord,
    (w.toNat % 256 = 1 → w.toNat / 2 ^ 8 = 0 → decodeWord w = .command .decode) ∧
    (w.toNat % 256 = 2 → w.toNat / 2 ^ 40 = 0 → decodeWord w = .command (.encode (w.toNat / 2 ^ 8 % 2 ^ 32))) ∧
    (w.toNat % 256 = 3 → w.toNat / 2 ^ 48 = 0 → decodeWord w =
      .command (.wrpix (w.toNat / 2 ^ 8 % 2 ^ 8) (w.toNat / 2 ^ 16 % 2 ^ 24) (BitVec.ofNat 8 (w.toNat / 2 ^ 40 % 2 ^ 8)))) ∧
    (¬ (w.toNat % 256 = 1 ∧ w.toNat / 2 ^ 8 = 0) → ¬ (w.toNat % 256 = 2 ∧ w.toNat / 2 ^ 40 = 0) →
      ¬ (w.toNat % 256 = 3 ∧ w.toNat / 2 ^ 48 = 0) → ∃ why, decodeWord w = .illegal why)

/-- R60: a word spells a command exactly when it matches that command's row, at most one row matches, and every other opcode is
illegal. -/
def Obligations.WordSpellsCommandOfItsRow : Prop :=
  ∀ w : CmdWord,
    (w &&& 0xFFFFFFFFFFFFFFFF#64 = 0x0000000000000001#64 ↔ decodeWord w = .command .decode) ∧
    (w &&& 0xFFFFFF00000000FF#64 = 0x0000000000000002#64 ↔ ∃ size, decodeWord w = .command (.encode size)) ∧
    (w &&& 0xFFFF0000000000FF#64 = 0x0000000000000003#64 ↔ ∃ x y v, decodeWord w = .command (.wrpix x y v)) ∧
    ¬ (w &&& 0xFFFFFFFFFFFFFFFF#64 = 0x0000000000000001#64 ∧ w &&& 0xFFFFFF00000000FF#64 = 0x0000000000000002#64) ∧
    ¬ (w &&& 0xFFFFFFFFFFFFFFFF#64 = 0x0000000000000001#64 ∧ w &&& 0xFFFF0000000000FF#64 = 0x0000000000000003#64) ∧
    ¬ (w &&& 0xFFFFFF00000000FF#64 = 0x0000000000000002#64 ∧ w &&& 0xFFFF0000000000FF#64 = 0x0000000000000003#64) ∧
    (w.extractLsb' 0 8 ≠ 0x01#8 → w.extractLsb' 0 8 ≠ 0x02#8 → w.extractLsb' 0 8 ≠ 0x03#8 →
      ∃ why, decodeWord w = .illegal why)

/-- R64: a word in a command stream is 8 bytes, byte 0 its bits [7:0] and byte 7 its bits [63:56], and the decoder on the stream
reads it back and leaves the bytes after it. -/
def Obligations.CommandStreamIsLittleEndian : Prop :=
  ∀ (w : CmdWord) (rest : List Byte),
    (bytesOfWord w).length = 8 ∧
    (∀ j < 8, (bytesOfWord w)[j]? = some (w.extractLsb' (8 * j) 8)) ∧
    decodeBytes (bytesOfWord w ++ rest) = (decodeWord w, rest)

/-- Words written out from the field tables of R57 to R59, as the bytes of 95_test_vectors.md 2.3 (V-K1, V-K2, V-K6, V-K8, V-K10,
V-K11, V-K16). -/
def Obligations.WrittenOutWordsDecode : Prop :=
  (decodeBytes [0x01#8, 0x00#8, 0x00#8, 0x00#8, 0x00#8, 0x00#8, 0x00#8, 0x00#8]).1 = .command .decode ∧
  (decodeBytes [0x02#8, 0x00#8, 0x01#8, 0x00#8, 0x00#8, 0x00#8, 0x00#8, 0x00#8]).1 = .command (.encode 256) ∧
  (decodeBytes [0x02#8, 0xff#8, 0xff#8, 0xff#8, 0xff#8, 0x00#8, 0x00#8, 0x00#8]).1 = .command (.encode 4294967295) ∧
  (decodeBytes [0x03#8, 0x7f#8, 0x07#8, 0x00#8, 0x00#8, 0x02#8, 0x00#8, 0x00#8]).1 = .command (.wrpix 127 7 2#8) ∧
  (decodeBytes [0x03#8, 0xff#8, 0xff#8, 0xff#8, 0xff#8, 0xff#8, 0x00#8, 0x00#8]).1 =
    .command (.wrpix 255 16777215 255#8) ∧
  (decodeBytes [0x00#8, 0x00#8, 0x00#8, 0x00#8, 0x00#8, 0x00#8, 0x00#8, 0x00#8]).1 = .illegal .reservedOpcode ∧
  (decodeBytes [0x02#8, 0x00#8, 0x01#8, 0x00#8, 0x00#8, 0x00#8, 0x00#8, 0x01#8]).1 = .illegal .reservedBits

/-- R65: the tokens of a command line assemble to the word the rule gives when every operand fits its field, and are rejected
otherwise; the canvas width, the sheet and the multiple of 256 are not checked. -/
def Obligations.AssemblerChecksOperandWidths : Prop :=
  assembleTokens [kwDecode] = .emits (.issue 0x01#64) ∧
  (∀ (t : List Char) (size : Nat), parseNumber t = some size →
    assembleTokens [kwEncode, t] =
      if size < 2 ^ 32 then .emits (.issue (BitVec.ofNat 64 (0x02 ||| (size <<< 8)))) else .rejected) ∧
  (∀ (tx ty tv : List Char) (x y v : Nat), parseNumber tx = some x → parseNumber ty = some y → parseNumber tv = some v →
    assembleTokens [kwWrpix, tx, [','], ty, [','], tv] =
      if x < 256 ∧ y < 2 ^ 24 ∧ v < 256 then
        .emits (.issue (BitVec.ofNat 64 (0x03 ||| (x <<< 8) ||| (y <<< 16) ||| (v <<< 40))))
      else .rejected)

/-! ### The units -/

/-- R67: every lane of the combiner, the pair of bits it reads and the index it makes of them, with the rule's example. -/
def Obligations.CombinerLanesReadOneBitOfEachPlane : Prop :=
  (∀ (lo hi : Byte), (combine8 lo hi).length = 8 ∧
    ∀ j < 8, (combine8 lo hi)[j]? = some (combine lo hi (7 - j)) ∧
      combine lo hi (7 - j) = BitVec.ofNat 8 ((lo.getLsbD (7 - j)).toNat + 2 * (hi.getLsbD (7 - j)).toNat)) ∧
  combine8 0xAA#8 0xCC#8 = [3#8, 2#8, 1#8, 0#8, 3#8, 2#8, 1#8, 0#8]

/-- R68: the combiner's outputs for each pair of bits, their range, and hence the range of every element DECODE writes. -/
def Obligations.DecodedElementsAreTwoBits : Prop :=
  (∀ (lo hi : Byte) (b : Nat), b < 8 →
    (combine lo hi b).toNat < 4 ∧ (∀ j, 2 ≤ j → (combine lo hi b).getLsbD j = false) ∧
    (lo.getLsbD b = false → hi.getLsbD b = false → combine lo hi b = 0#8) ∧
    (lo.getLsbD b = true → hi.getLsbD b = false → combine lo hi b = 1#8) ∧
    (lo.getLsbD b = false → hi.getLsbD b = true → combine lo hi b = 2#8) ∧
    (lo.getLsbD b = true → hi.getLsbD b = true → combine lo hi b = 3#8)) ∧
  ∀ s : State, s.raw.length % 256 = 0 → ∃ t, exec .decode s = .next t ∧ ∀ e ∈ t.sheet, e.toNat < 4

/-- R73: whatever its accumulators start at, the splitter puts bit 0 of element `j` at bit `7 - j` of the low plane and bit 1 at
bit `7 - j` of the high plane; no other bit of an element plays a part. -/
def Obligations.SplitterTakesTwoBitsOfEachElement : Prop :=
  (∀ (start : Byte × Byte) (es : List Byte), es.length = 8 → ∀ j < 8, ∃ e, es[j]? = some e ∧
    (getPlaneFrom start es).1.getLsbD (7 - j) = e.getLsbD 0 ∧
    (getPlaneFrom start es).2.getLsbD (7 - j) = e.getLsbD 1) ∧
  (∀ es : List Byte, getPlane es = getPlaneFrom (0#8, 0#8) es) ∧
  getPlane [3#8, 2#8, 1#8, 0#8, 3#8, 2#8, 1#8, 0#8] = (0xAA#8, 0xCC#8)

/-- R74: the splitter and the combiner undo each other. -/
def Obligations.SplitterAndCombinerAreInverse : Prop :=
  (∀ lo hi : Byte, getPlane (combine8 lo hi) = (lo, hi)) ∧
  (∀ es : List Byte, es.length = 8 → combine8 (getPlane es).1 (getPlane es).2 = es.map (· &&& 3#8)) ∧
  (∀ es : List Byte, es.length = 8 → (∀ e ∈ es, e.toNat < 4) → combine8 (getPlane es).1 (getPlane es).2 = es)

/-- R43: the pixel-to-source map and its converse are inverse to each other, bit by bit. -/
def Obligations.PixelMapIsBijection : Prop :=
  ∀ n : Nat, n % 256 = 0 →
    (∀ i < 4 * n, pixelLowAddr i < n ∧ pixelHighAddr i < n ∧ pixelBit i < 8 ∧
      planeOf (pixelLowAddr i) = 0 ∧ planeOf (pixelHighAddr i) = 1 ∧
      pixelOfBit (pixelLowAddr i) (pixelBit i) = i ∧ pixelOfBit (pixelHighAddr i) (pixelBit i) = i) ∧
    (∀ a < n, ∀ b < 8, pixelOfBit a b < 4 * n ∧ pixelBit (pixelOfBit a b) = b ∧
      (planeOf a = 0 → pixelLowAddr (pixelOfBit a b) = a) ∧ (planeOf a = 1 → pixelHighAddr (pixelOfBit a b) = a))

/-- R40: the raster, both ways. -/
def Obligations.SheetRasterIsRowMajor : Prop :=
  (∀ x y : Nat, x < 128 → pixelIndex x y = y * 128 + x ∧ pixelIndex x y % 128 = x ∧ pixelIndex x y / 128 = y) ∧
  (∀ i : Nat, pixelIndex (i % 128) (i / 128) = i)

/-- R70: the loop of R69 and the closed form of R43 give the same list, and which bytes and which bit stand behind each cursor
value. -/
def Obligations.DeinterleaverMatchesClosedForm : Prop :=
  ∀ (raw : List Byte) (n : Nat), n % 256 = 0 → n ≤ raw.length →
    ∃ out, deinterleave raw n = some out ∧ out.length = 4 * n ∧
      (∀ p < 4 * n, ∃ e, out[p]? = some e ∧ sourcePixel raw p = some e) ∧
      (∀ k r c b : Nat, k < n / 256 → r < 8 → c < 16 → b < 8 →
        ((8 * k + r) * 128 + 8 * c + (7 - b)) % 128 = 8 * c + (7 - b) ∧
        ((8 * k + r) * 128 + 8 * c + (7 - b)) / 128 = 8 * k + r ∧
        pixelLowAddr ((8 * k + r) * 128 + 8 * c + (7 - b)) = c * 16 + r + 256 * k ∧
        pixelHighAddr ((8 * k + r) * 128 + 8 * c + (7 - b)) = c * 16 + r + 256 * k + 8 ∧
        ∃ lo hi, raw[c * 16 + r + 256 * k]? = some lo ∧ raw[c * 16 + r + 256 * k + 8]? = some hi ∧
          out[(8 * k + r) * 128 + 8 * c + (7 - b)]? = some (combine lo hi b))

/-- R76: every byte of the new region is written exactly once, every read is in bounds, the group starts at the pixels R43 ties
to it, and neither the order of the groups nor what the region held before changes the result. -/
def Obligations.InterleaverWritesEveryByteOnce : Prop :=
  ∀ size : Nat, size % 256 = 0 →
    ((encodeOrder size).flatMap fun g => [lowPlaneAddr g.k g.r g.c, highPlaneAddr g.k g.r g.c]).Perm (List.range size) ∧
    (∀ g ∈ encodeOrder size, 8 * groupOffset g.k g.r g.c = (8 * g.k + g.r) * 128 + 8 * g.c ∧
      8 * groupOffset g.k g.r g.c + 7 ≤ 4 * size - 1) ∧
    (0 < size → ∃ g ∈ encodeOrder size, 8 * groupOffset g.k g.r g.c + 7 = 4 * size - 1) ∧
    (∀ g, g ∈ decodeOrder size ↔ g ∈ encodeOrder size) ∧
    ∀ sheet : List Byte, 4 * size ≤ sheet.length →
      ∃ out, interleave sheet size = some out ∧ out.length = size ∧
        (∀ a < size, ∀ b < 8, ∃ v e, out[a]? = some v ∧ sheet[pixelOfBit a b]? = some e ∧
          v.getLsbD b = e.getLsbD (planeOf a)) ∧
        ∀ (order : List Group) (init : List Byte), (∀ g, g ∈ order ↔ g ∈ encodeOrder size) → init.length = size →
          interleaveInto sheet order init = some out

/-! ### The commands: result, completion, frame -/

/-- R71: DECODE of a RAW of valid size completes; SHEET becomes the de-interleaver's list, element by element R43's value; CI
advances and nothing else changes. -/
def Obligations.DecodeBuildsFreshSheet : Prop :=
  ∀ s : State, s.raw.length % 256 = 0 →
    ∃ e, exec .decode s = .next { s with sheet := e, ci := s.ci + 1 } ∧
      deinterleave s.raw s.raw.length = some e ∧ e.length = 4 * s.raw.length ∧
      ∀ i < 4 * s.raw.length, ∃ v, e[i]? = some v ∧ sourcePixel s.raw i = some v

/-- R44: the sheet DECODE gives is 128 wide and `n / 32 = 8 * (n / 256)` rows high, from `n / 16` tiles in `n / 256` tile-rows. -/
def Obligations.DecodedSheetSize : Prop :=
  (∀ s : State, s.raw.length % 256 = 0 →
    ∃ t, exec .decode s = .next t ∧ t.sheet.length = 4 * s.raw.length ∧
      t.sheet.length = 128 * (s.raw.length / 32) ∧ s.raw.length / 32 = 8 * (s.raw.length / 256) ∧
      s.raw.length = 16 * (s.raw.length / 16) ∧ s.raw.length / 16 = 16 * (s.raw.length / 256)) ∧
  (∀ s : State, s.raw.length = 256 → ∃ t, exec .decode s = .next t ∧ t.sheet.length = 1024)

/-- R77: ENCODE of a valid size the sheet covers completes; RAW becomes the interleaver's list, bit by bit the planes of the
elements R43 ties to it; CI advances and nothing else changes. -/
def Obligations.EncodeRebuildsRaw : Prop :=
  ∀ (s : State) (size : Nat), size % 256 = 0 → 4 * size ≤ s.sheet.length →
    ∃ b, exec (.encode size) s = .next { s with raw := b, ci := s.ci + 1 } ∧
      interleave s.sheet size = some b ∧ b.length = size ∧
      ∀ a < size, ∀ j < 8, ∃ v e, b[a]? = some v ∧ s.sheet[pixelOfBit a j]? = some e ∧
        v.getLsbD j = e.getLsbD (planeOf a)

/-- R72: WRPIX inside the sheet stores the value as given at element `y * 128 + x`, every other element and every other field
kept, and CI advances; outside it the fault is BOUNDS, also for a column of 128 or more whose element would exist. That
FAULT_CMD holds `encode` of the command is the model's inference (DEDUCED, notes/assumptions/3.md); for `x` of 256 or more or
`y` of 2 to the 24 or more, which no word spells (I9), that exec acts at all and records the operand cut to its field is the
model's choice (DESIGN CHOICE, notes/assumptions/11.md). -/
def Obligations.WrpixStoresOnePixel : Prop :=
  (∀ (s : State) (x y : Nat) (v : Byte), x < 128 → y * 128 + x < s.sheet.length →
    ∃ e, exec (.wrpix x y v) s = .next { s with sheet := e, ci := s.ci + 1 } ∧ e.length = s.sheet.length ∧
      e[y * 128 + x]? = some v ∧ ∀ i, i ≠ y * 128 + x → e[i]? = s.sheet[i]?) ∧
  (∀ (s : State) (x y : Nat) (v : Byte), 128 ≤ x ∨ s.sheet.length ≤ y * 128 + x →
    exec (.wrpix x y v) s = .next { s with fault := 0x04#8, faultCmd := encode (.wrpix x y v) })

/-- R72, a corner case: of two writes to one pixel the later one wins, as if the first had not stored. -/
def Obligations.LaterPixelWriteWins : Prop :=
  ∀ (s : State) (x y : Nat) (v v' : Byte), x < 128 → y * 128 + x < s.sheet.length →
    ∃ t u, exec (.wrpix x y v) s = .next t ∧ exec (.wrpix x y v') t = .next u ∧
      exec (.wrpix x y v') s = .next { u with ci := s.ci + 1 } ∧ u.ci = s.ci + 2

/-- R37: no command performs an access outside a buffer, so from every state every command, with every operand, answers a next
state. -/
def Obligations.CommandsNeverAccessOutOfBounds : Prop :=
  ∀ (i : Instr) (s : State), ∃ t, exec i s = .next t

/-- The frame of DECODE (R47, R48, R71): RAW, byte by byte, and the host's side are kept whatever happens; without a fault FAULT
and FAULT_CMD are kept; with one SHEET and CI are. -/
def Obligations.DecodeFrame : Prop :=
  ∀ s t : State, exec .decode s = .next t →
    (∀ a, readBuf t.raw a = readBuf s.raw a) ∧ t.raw = s.raw ∧ t.hostOps = s.hostOps ∧ t.readouts = s.readouts ∧
    (s.raw.length % 256 = 0 → t.fault = s.fault ∧ t.faultCmd = s.faultCmd) ∧
    (s.raw.length % 256 ≠ 0 → (∀ i, readBuf t.sheet i = readBuf s.sheet i) ∧ t.ci = s.ci)

/-- The frame of ENCODE (R47, R48, R77): SHEET, element by element, and the host's side are kept whatever happens; without a
fault FAULT and FAULT_CMD are kept; with one RAW and CI are. -/
def Obligations.EncodeFrame : Prop :=
  ∀ (size : Nat) (s t : State), exec (.encode size) s = .next t →
    (∀ i, readBuf t.sheet i = readBuf s.sheet i) ∧ t.sheet = s.sheet ∧ t.hostOps = s.hostOps ∧ t.readouts = s.readouts ∧
    (size % 256 = 0 → 4 * size ≤ s.sheet.length → t.fault = s.fault ∧ t.faultCmd = s.faultCmd) ∧
    (size % 256 ≠ 0 ∨ s.sheet.length < 4 * size → (∀ a, readBuf t.raw a = readBuf s.raw a) ∧ t.ci = s.ci)

/-- The frame of WRPIX (R48, R72): RAW, SHEET_LEN, the host's side and every element but the one at `pixelIndex x y` are kept
whatever happens; without a fault FAULT and FAULT_CMD are kept; with one every element and CI are. -/
def Obligations.WrpixFrame : Prop :=
  ∀ (x y : Nat) (v : Byte) (s t : State), exec (.wrpix x y v) s = .next t →
    (∀ a, readBuf t.raw a = readBuf s.raw a) ∧ t.raw = s.raw ∧ t.sheet.length = s.sheet.length ∧
    (∀ i, i ≠ pixelIndex x y → readBuf t.sheet i = readBuf s.sheet i) ∧
    t.hostOps = s.hostOps ∧ t.readouts = s.readouts ∧
    (x < 128 → y * 128 + x < s.sheet.length → t.fault = s.fault ∧ t.faultCmd = s.faultCmd) ∧
    (128 ≤ x ∨ s.sheet.length ≤ y * 128 + x → (∀ i, readBuf t.sheet i = readBuf s.sheet i) ∧ t.ci = s.ci)

/-! ### Faults -/

/-- R83: a word with a reserved opcode, or a set reserved bit, faults with ILLEGAL_COMMAND, code 0x01, and records the word. -/
def Obligations.IllegalWordFaults : Prop :=
  ∀ (s : State) (w : CmdWord) (rest : List HostOp), s.fault = 0x00#8 → s.hostOps = .issue w :: rest →
    ((w.extractLsb' 0 8 ≠ 0x01#8 ∧ w.extractLsb' 0 8 ≠ 0x02#8 ∧ w.extractLsb' 0 8 ≠ 0x03#8) ∨
      (w.extractLsb' 0 8 = 0x01#8 ∧ w.extractLsb' 8 56 ≠ 0) ∨
      (w.extractLsb' 0 8 = 0x02#8 ∧ w.extractLsb' 40 24 ≠ 0) ∨
      (w.extractLsb' 0 8 = 0x03#8 ∧ w.extractLsb' 48 16 ≠ 0)) →
    step s = .next { s with fault := 0x01#8, faultCmd := w, hostOps := rest }

/-- R84: DECODE and ENCODE of a size that is not a multiple of 256 fault with INVALID_SIZE, code 0x02, and record the word; no
other command does. -/
def Obligations.SizeNotMultipleOf256Faults : Prop :=
  ∀ (s : State) (w : CmdWord) (rest : List HostOp), s.fault = 0x00#8 → s.hostOps = .issue w :: rest →
    (decodeWord w = .command .decode → s.raw.length % 256 ≠ 0 →
      step s = .next { s with fault := 0x02#8, faultCmd := w, hostOps := rest }) ∧
    (∀ size, decodeWord w = .command (.encode size) → size % 256 ≠ 0 →
      step s = .next { s with fault := 0x02#8, faultCmd := w, hostOps := rest }) ∧
    (∀ t, step s = .next t → t.fault = 0x02#8 →
      (decodeWord w = .command .decode ∧ s.raw.length % 256 ≠ 0) ∨
      ∃ size, decodeWord w = .command (.encode size) ∧ size % 256 ≠ 0)

/-- R85: ENCODE of a valid size that needs more elements than SHEET holds faults with SHEET_TOO_SHORT, code 0x03, and records the
word; no other command does. -/
def Obligations.ShortSheetFaults : Prop :=
  ∀ (s : State) (w : CmdWord) (rest : List HostOp), s.fault = 0x00#8 → s.hostOps = .issue w :: rest →
    (∀ size, decodeWord w = .command (.encode size) → size % 256 = 0 → s.sheet.length < 4 * size →
      step s = .next { s with fault := 0x03#8, faultCmd := w, hostOps := rest }) ∧
    (∀ t, step s = .next t → t.fault = 0x03#8 →
      ∃ size, decodeWord w = .command (.encode size) ∧ size % 256 = 0 ∧ s.sheet.length < 4 * size)

/-- R86: WRPIX outside the sheet faults with BOUNDS, code 0x04, and records the word; no other command does. -/
def Obligations.PixelOutsideSheetFaults : Prop :=
  ∀ (s : State) (w : CmdWord) (rest : List HostOp), s.fault = 0x00#8 → s.hostOps = .issue w :: rest →
    (∀ x y v, decodeWord w = .command (.wrpix x y v) → 128 ≤ x ∨ s.sheet.length ≤ y * 128 + x →
      step s = .next { s with fault := 0x04#8, faultCmd := w, hostOps := rest }) ∧
    (∀ t, step s = .next t → t.fault = 0x04#8 →
      ∃ x y v, decodeWord w = .command (.wrpix x y v) ∧ (128 ≤ x ∨ s.sheet.length ≤ y * 128 + x))

/-- R87: which fault a word reports, of all the words there are and from every state that is not halted; the first that applies
in the rule's order. -/
def Obligations.FaultsAreReportedInOrder : Prop :=
  ∀ (s : State) (w : CmdWord) (rest : List HostOp), s.fault = 0x00#8 → s.hostOps = .issue w :: rest →
    ∃ t, step s = .next t ∧
      (∀ why, decodeWord w = .illegal why → t.fault = 0x01#8) ∧
      (decodeWord w = .command .decode → t.fault = if s.raw.length % 256 ≠ 0 then 0x02#8 else 0x00#8) ∧
      (∀ size, decodeWord w = .command (.encode size) →
        t.fault = if size % 256 ≠ 0 then 0x02#8 else if s.sheet.length < 4 * size then 0x03#8 else 0x00#8) ∧
      (∀ x y v, decodeWord w = .command (.wrpix x y v) →
        t.fault = if 128 ≤ x ∨ s.sheet.length ≤ y * 128 + x then 0x04#8 else 0x00#8)

/-- R88: a word that faults writes FAULT and FAULT_CMD and nothing else; CI still holds its position. -/
def Obligations.FaultEntryIsPrecise : Prop :=
  ∀ (s t : State) (w : CmdWord) (rest : List HostOp), s.fault = 0x00#8 → s.hostOps = .issue w :: rest →
    step s = .next t → t.fault ≠ 0x00#8 →
    t = { s with fault := t.fault, faultCmd := w, hostOps := rest }

/-- R89: while halted, HOST_ISSUE changes no field of R12, whatever the word, loads and reads do what they always do, and the run
has not ended normally (R107); while not halted the block accepts every command word. That what a read returns stands in
`readouts`, and that an operation taken leaves `hostOps`, is the model's choice (DESIGN CHOICE, notes/assumptions/2.md). -/
def Obligations.HaltedBlockRefusesWords : Prop :=
  (∀ (s : State) (rest : List HostOp), s.fault ≠ 0x00#8 →
    ¬ s.endedNormally ∧
    (∀ w, s.hostOps = .issue w :: rest → step s = .next { s with hostOps := rest }) ∧
    (∀ b, s.hostOps = .loadRaw b :: rest → b.length ≤ Config.maxRawBytes →
      step s = .next { s with raw := b, hostOps := rest }) ∧
    (∀ e, s.hostOps = .loadSheet e :: rest → e.length ≤ 4 * Config.maxRawBytes →
      step s = .next { s with sheet := e, hostOps := rest }) ∧
    (s.hostOps = .read :: rest →
      step s = .next { s with hostOps := rest, readouts := s.readouts ++ [s.readout] })) ∧
  (∀ (s : State) (w : CmdWord) (rest : List HostOp), s.fault = 0x00#8 → s.hostOps = .issue w :: rest →
    ∃ t, step s = .next t)

/-- R90 and R91: along a run of any operations but reset, a fault once taken stays, with its word and the command index; reset
clears both and empties the buffers. -/
def Obligations.OnlyResetLeavesHaltedState : Prop :=
  (∀ (ops : List HostOp) (s t : State), s.fault ≠ 0x00#8 → HostOp.reset ∉ ops → performAll ops s = .next t →
    t.fault = s.fault ∧ t.faultCmd = s.faultCmd ∧ t.ci = s.ci) ∧
  (∀ (s : State) (rest : List HostOp), s.fault ≠ 0x00#8 → s.hostOps = .reset :: rest →
    ∃ t, step s = .next t ∧ t.fault = 0x00#8 ∧ t.faultCmd = 0#64 ∧ t.raw = [] ∧ t.sheet = [])

/-! ### The host port, reset and the step -/

/-- R33: the values after reset. -/
def Obligations.ResetValues : Prop :=
  State.reset.raw = [] ∧ State.reset.raw.length = 0 ∧ State.reset.sheet = [] ∧ State.reset.sheet.length = 0 ∧
  State.reset.fault = 0x00#8 ∧ State.reset.faultCmd = 0x0000000000000000#64 ∧ State.reset.ci = 0

/-- R100: reset is accepted in every state, sets every field of R12 to its reset value, and is the only operation that clears
FAULT. That `hostOps` keeps the operations to come and `readouts` what was read is the model's choice (DESIGN CHOICE,
notes/assumptions/2.md); R100 speaks of R12's fields only. -/
def Obligations.ResetClearsEverything : Prop :=
  (∀ (s : State) (rest : List HostOp), s.hostOps = .reset :: rest →
    step s = .next { State.reset with hostOps := rest, readouts := s.readouts }) ∧
  (∀ (s t : State) (op : HostOp) (rest : List HostOp), s.hostOps = op :: rest → s.fault ≠ 0x00#8 →
    step s = .next t → t.fault = 0x00#8 → op = .reset)

/-- R27: HOST_LOAD_RAW up to the capacity replaces RAW and nothing else, halted or not; beyond it there is no step. -/
def Obligations.LoadRawReplacesRaw : Prop :=
  ∀ (s : State) (b : List Byte) (rest : List HostOp), s.hostOps = .loadRaw b :: rest →
    (b.length ≤ Config.maxRawBytes → step s = .next { s with raw := b, hostOps := rest }) ∧
    (Config.maxRawBytes < b.length → step s = .refused .loadTooLong)

/-- R28: HOST_LOAD_SHEET up to four times the capacity replaces SHEET and nothing else, halted or not; beyond it there is no
step. -/
def Obligations.LoadSheetReplacesSheet : Prop :=
  ∀ (s : State) (e : List Byte) (rest : List HostOp), s.hostOps = .loadSheet e :: rest →
    (e.length ≤ 4 * Config.maxRawBytes → step s = .next { s with sheet := e, hostOps := rest }) ∧
    (4 * Config.maxRawBytes < e.length → step s = .refused .loadTooLong)

/-- R29: HOST_READ returns every field of R12 and changes none, halted or not; a second read right after returns the same.
That what it returns stands in `readouts`, and that the operation taken leaves `hostOps`, is the model's choice (DESIGN CHOICE,
notes/assumptions/2.md). -/
def Obligations.ReadReturnsEveryField : Prop :=
  (∀ (s : State) (rest : List HostOp), s.hostOps = .read :: rest →
    step s = .next { s with hostOps := rest, readouts := s.readouts ++
      [{ raw := s.raw, sheet := s.sheet, rawLen := s.raw.length, sheetLen := s.sheet.length, fault := s.fault,
         faultCmd := s.faultCmd, ci := s.ci }] }) ∧
  (∀ (s : State), ∃ t r, performAll [.read, .read] s = .next t ∧ t.readouts = s.readouts ++ [r, r])

/-- R30: when FAULT is 0x00 a step with HOST_ISSUE next is the decoded command's meaning, at the state with that operation taken
off the port. -/
def Obligations.StepRunsDecodedCommand : Prop :=
  ∀ (s : State) (w : CmdWord) (i : Instr) (rest : List HostOp), s.fault = 0x00#8 → s.hostOps = .issue w :: rest →
    decodeWord w = .command i → step s = exec i { s with hostOps := rest }

/-- The model's idle step (notes/assumptions/2.md): with no operation to come the block keeps all of its state (R99). -/
def Obligations.IdleBlockKeepsItsState : Prop :=
  ∀ s : State, s.hostOps = [] → step s = .next s

/-- R20: CI is 0 after reset, by power-on or by the host; along a run of any operations but reset from a block that is not halted, CI counts the commands completed; if the run
faulted, CI is the 0-based position of the faulting command, counted from where the run began, and FAULT_CMD is its word. -/
def Obligations.CommandIndexCountsCompletions : Prop :=
  State.reset.ci = 0 ∧
  (∀ (s : State) (rest : List HostOp), s.hostOps = .reset :: rest → ∃ t, step s = .next t ∧ t.ci = 0) ∧
  ∀ (ops : List HostOp) (s t : State), s.fault = 0x00#8 → HostOp.reset ∉ ops → performAll ops s = .next t →
    (t.fault = 0x00#8 → t.ci = s.ci + ops.countP HostOp.isIssue) ∧
    (t.fault ≠ 0x00#8 → ∃ before w after, ops = before ++ .issue w :: after ∧
      t.ci = s.ci + before.countP HostOp.isIssue ∧ t.faultCmd = w)

/-- R107, with R89: a run from reset, of any operations but a further reset, that ends normally has completed every command it
issued, and no part of it up to any point has faulted. -/
def Obligations.NormalEndMeansNoFaultOnTheWay : Prop :=
  ∀ (ops : List HostOp) (t : State), HostOp.reset ∉ ops → runFromReset ops = .next t → t.endedNormally →
    t.ci = ops.countP HostOp.isIssue ∧
    ∀ before after : List HostOp, ops = before ++ after →
      ∃ u, runFromReset before = .next u ∧ u.endedNormally ∧ u.ci = before.countP HostOp.isIssue

/-! ### Whole-machine rules -/

/-- R12, R18, R19, R82: every step keeps the buffers within the capacity, FAULT a legal code, and FAULT_CMD zero while there is
no fault. -/
def Obligations.StepKeepsStateInvariant : Prop :=
  ∀ s t : State, s.Inv → step s = .next t → t.Inv

/-- The invariant holds after reset. -/
def Obligations.ResetMeetsStateInvariant : Prop := State.reset.Inv

/-- A step stops only where a host load exceeds the capacity (R27, R28, I11): never with a fault of the model, never for a
command. -/
def Obligations.StepStopsOnlyOnLongLoad : Prop :=
  ∀ s : State, (∃ t, step s = .next t) ∨
    (step s = .refused .loadTooLong ∧
      ((∃ b rest, s.hostOps = .loadRaw b :: rest ∧ Config.maxRawBytes < b.length) ∨
       (∃ e rest, s.hostOps = .loadSheet e :: rest ∧ 4 * Config.maxRawBytes < e.length)))

/-- R13, R14: RAW, and with it RAW_LEN, changes only by an ENCODE that completes, by HOST_LOAD_RAW and by reset. -/
def Obligations.RawChangesOnlyByReplacement : Prop :=
  ∀ s t : State, step s = .next t → t.raw ≠ s.raw →
    ∃ op rest, s.hostOps = op :: rest ∧
      (op = .reset ∨ op = .loadRaw t.raw ∨
        ∃ w size, op = .issue w ∧ s.fault = 0x00#8 ∧ decodeWord w = .command (.encode size) ∧ t.ci = s.ci + 1 ∧
          t.raw.length = size)

/-- R15, R16: SHEET changes only by a DECODE that completes, by one element by WRPIX, by HOST_LOAD_SHEET and by reset. -/
def Obligations.SheetChangesOnlyByDecodeOrPixel : Prop :=
  ∀ s t : State, step s = .next t → t.sheet ≠ s.sheet →
    ∃ op rest, s.hostOps = op :: rest ∧
      (op = .reset ∨ op = .loadSheet t.sheet ∨
        (∃ w, op = .issue w ∧ s.fault = 0x00#8 ∧ decodeWord w = .command .decode ∧
          t.sheet.length = 4 * s.raw.length ∧ ∀ e ∈ t.sheet, e.toNat < 4) ∨
        (∃ w x y v, op = .issue w ∧ s.fault = 0x00#8 ∧ decodeWord w = .command (.wrpix x y v) ∧
          t.sheet = s.sheet.set (y * 128 + x) v))

/-- R18, R19: FAULT and FAULT_CMD are written only by the fault of a command and by reset. -/
def Obligations.FaultRegistersWrittenOnlyByFaultOrReset : Prop :=
  ∀ s t : State, step s = .next t → (t.fault ≠ s.fault ∨ t.faultCmd ≠ s.faultCmd) →
    ∃ op rest, s.hostOps = op :: rest ∧
      (op = .reset ∨ ∃ w, op = .issue w ∧ s.fault = 0x00#8 ∧ t.faultCmd = w ∧ 1 ≤ t.fault.toNat ∧ t.fault.toNat ≤ 4)

/-- R25, R105: the result of a command word is a function of the word and of R12's fields: two blocks that read the same still
read the same after the same word, whatever else their hosts have done or will do. -/
def Obligations.CommandResultDependsOnReadableStateOnly : Prop :=
  ∀ (s s' : State) (w : CmdWord) (rest rest' : List HostOp), s.readout = s'.readout →
    s.hostOps = .issue w :: rest → s'.hostOps = .issue w :: rest' →
    ∃ t t', step s = .next t ∧ step s' = .next t' ∧ t.readout = t'.readout

/-- R73, R77, D6: ENCODE reads only the low two bits of the first `4 * size` elements. -/
def Obligations.EncodeIgnoresHighBitsAndTail : Prop :=
  ∀ (s s' : State) (size : Nat), size % 256 = 0 → 4 * size ≤ s.sheet.length → 4 * size ≤ s'.sheet.length →
    (∀ (i : Nat) (e e' : Byte), i < 4 * size → s.sheet[i]? = some e → s'.sheet[i]? = some e' → e &&& 3#8 = e' &&& 3#8) →
    ∃ t t', exec (.encode size) s = .next t ∧ exec (.encode size) s' = .next t' ∧ t.raw = t'.raw

/-! ### Round trips -/

/-- R78: DECODE then ENCODE of the same length gives RAW back, for every valid length; and as a run of issued words where ENCODE
can spell that length. -/
def Obligations.RawRoundTrip : Prop :=
  ∀ (s : State) (n : Nat), s.fault = 0x00#8 → s.raw.length = n → n % 256 = 0 →
    (∃ t u, exec .decode s = .next t ∧ exec (.encode n) t = .next u ∧ u.raw = s.raw ∧ u.fault = 0x00#8) ∧
    (n < 2 ^ 32 → ∃ u, performAll [.issue (encode .decode), .issue (encode (.encode n))] s = .next u ∧
      u.raw = s.raw ∧ u.fault = 0x00#8)

/-- R79: ENCODE then DECODE gives a sheet of two-bit elements back. -/
def Obligations.SheetRoundTrip : Prop :=
  ∀ (s : State) (n : Nat), s.fault = 0x00#8 → s.sheet.length = 4 * n → n % 256 = 0 → (∀ e ∈ s.sheet, e.toNat < 4) →
    (∃ t u, exec (.encode n) s = .next t ∧ exec .decode t = .next u ∧ u.sheet = s.sheet ∧ u.fault = 0x00#8) ∧
    (n < 2 ^ 32 → ∃ u, performAll [.issue (encode (.encode n)), .issue (encode .decode)] s = .next u ∧
      u.sheet = s.sheet ∧ u.fault = 0x00#8)

/-- R80: ENCODE then DECODE gives the low two bits of the first `4 * n` elements, whatever the elements, and nothing beyond
them. -/
def Obligations.MaskedSheetRoundTrip : Prop :=
  ∀ (s : State) (n : Nat), s.fault = 0x00#8 → n % 256 = 0 → 4 * n ≤ s.sheet.length →
    (∃ t u, exec (.encode n) s = .next t ∧ exec .decode t = .next u ∧ u.fault = 0x00#8 ∧ u.sheet.length = 4 * n ∧
      u.sheet = (s.sheet.take (4 * n)).map (· &&& 3#8)) ∧
    (n < 2 ^ 32 → ∃ u, performAll [.issue (encode (.encode n)), .issue (encode .decode)] s = .next u ∧
      u.fault = 0x00#8 ∧ u.sheet.length = 4 * n ∧ u.sheet = (s.sheet.take (4 * n)).map (· &&& 3#8))

/-- R81: the size, the range, and that the same command again on the same input gives the same output. -/
def Obligations.TranscodingIsDeterministic : Prop :=
  (∀ s : State, s.raw.length % 256 = 0 → ∃ t u, exec .decode s = .next t ∧ exec .decode t = .next u ∧
    t.sheet.length = 4 * s.raw.length ∧ (∀ e ∈ t.sheet, e.toNat < 4) ∧ u.sheet = t.sheet) ∧
  (∀ (s : State) (size : Nat), size % 256 = 0 → 4 * size ≤ s.sheet.length →
    ∃ t u, exec (.encode size) s = .next t ∧ exec (.encode size) t = .next u ∧ u.raw = t.raw)
end

