-- ==== Sys2Proof/Laws/Encoding.lean ====
section
/-! SUPPORT. The fields of an encoded command, each read back, and a word as the join of its fields. -/

namespace Sys2Proof

theorem opField_encode (i : Instr) : opField (encode i) =
    match i with | .decode => opDecode | .encode _ => opEncode | .wrpix _ _ _ => opWrpix := by
  cases i <;> exact BitVec.extractLsb'_append_eq_right

theorem reservedNone_encode : reservedNone (encode .decode) = 0 := by decide

theorem reservedSize_encode (size : Nat) : reservedSize (encode (.encode size)) = 0 := by
  rw [reservedSize, encode, BitVec.extractLsb'_append_eq_of_le (by decide)]
  exact BitVec.extractLsb'_append_eq_left

theorem sizeField_encode (size : Nat) : sizeField (encode (.encode size)) = BitVec.ofNat 32 size := by
  rw [sizeField, encode, BitVec.extractLsb'_append_eq_of_le (by decide)]
  exact BitVec.extractLsb'_append_eq_right

theorem reservedPix_encode (x y : Nat) (v : Byte) : reservedPix (encode (.wrpix x y v)) = 0 := by
  rw [reservedPix, encode, BitVec.extractLsb'_append_eq_of_le (by decide),
    BitVec.extractLsb'_append_eq_of_le (by decide), BitVec.extractLsb'_append_eq_of_le (by decide)]
  exact BitVec.extractLsb'_append_eq_left

theorem vField_encode (x y : Nat) (v : Byte) : vField (encode (.wrpix x y v)) = v := by
  rw [vField, encode, BitVec.extractLsb'_append_eq_of_le (by decide),
    BitVec.extractLsb'_append_eq_of_le (by decide), BitVec.extractLsb'_append_eq_of_le (by decide)]
  exact BitVec.extractLsb'_append_eq_right

theorem yField_encode (x y : Nat) (v : Byte) : yField (encode (.wrpix x y v)) = BitVec.ofNat 24 y := by
  rw [yField, encode, BitVec.extractLsb'_append_eq_of_le (by decide), BitVec.extractLsb'_append_eq_of_le (by decide)]
  exact BitVec.extractLsb'_append_eq_right

theorem xField_encode (x y : Nat) (v : Byte) : xField (encode (.wrpix x y v)) = BitVec.ofNat 8 x := by
  rw [xField, encode, BitVec.extractLsb'_append_eq_of_le (by decide)]
  exact BitVec.extractLsb'_append_eq_right

theorem word_eq_fields_none (w : CmdWord) : w = reservedNone w ++ opField w := by
  rw [reservedNone, opField, BitVec.extractLsb'_append_extractLsb'_eq_extractLsb' (by decide)]
  simp

theorem word_eq_fields_size (w : CmdWord) : w = reservedSize w ++ sizeField w ++ opField w := by
  rw [reservedSize, sizeField, opField, BitVec.extractLsb'_append_extractLsb'_eq_extractLsb' (by decide),
    BitVec.extractLsb'_append_extractLsb'_eq_extractLsb' (by decide)]
  simp

theorem word_eq_fields_pix (w : CmdWord) : w = reservedPix w ++ vField w ++ yField w ++ xField w ++ opField w := by
  rw [reservedPix, vField, yField, xField, opField, BitVec.extractLsb'_append_extractLsb'_eq_extractLsb' (by decide),
    BitVec.extractLsb'_append_extractLsb'_eq_extractLsb' (by decide),
    BitVec.extractLsb'_append_extractLsb'_eq_extractLsb' (by decide),
    BitVec.extractLsb'_append_extractLsb'_eq_extractLsb' (by decide)]
  simp

/-- The fields as numbers of the word read as a number. -/
theorem opField_toNat (w : CmdWord) : (opField w).toNat = w.toNat % 2 ^ 8 := by
  simp [opField, BitVec.extractLsb'_toNat]

theorem reservedNone_toNat (w : CmdWord) : (reservedNone w).toNat = w.toNat / 2 ^ 8 % 2 ^ 56 := by
  simp [reservedNone, BitVec.extractLsb'_toNat, Nat.shiftRight_eq_div_pow]

theorem reservedSize_toNat (w : CmdWord) : (reservedSize w).toNat = w.toNat / 2 ^ 40 % 2 ^ 24 := by
  simp [reservedSize, BitVec.extractLsb'_toNat, Nat.shiftRight_eq_div_pow]

theorem reservedPix_toNat (w : CmdWord) : (reservedPix w).toNat = w.toNat / 2 ^ 48 % 2 ^ 16 := by
  simp [reservedPix, BitVec.extractLsb'_toNat, Nat.shiftRight_eq_div_pow]

theorem sizeField_toNat (w : CmdWord) : (sizeField w).toNat = w.toNat / 2 ^ 8 % 2 ^ 32 := by
  simp [sizeField, BitVec.extractLsb'_toNat, Nat.shiftRight_eq_div_pow]

theorem xField_toNat (w : CmdWord) : (xField w).toNat = w.toNat / 2 ^ 8 % 2 ^ 8 := by
  simp [xField, BitVec.extractLsb'_toNat, Nat.shiftRight_eq_div_pow]

theorem yField_toNat (w : CmdWord) : (yField w).toNat = w.toNat / 2 ^ 16 % 2 ^ 24 := by
  simp [yField, BitVec.extractLsb'_toNat, Nat.shiftRight_eq_div_pow]

theorem vField_toNat (w : CmdWord) : (vField w).toNat = w.toNat / 2 ^ 40 % 2 ^ 8 := by
  simp [vField, BitVec.extractLsb'_toNat, Nat.shiftRight_eq_div_pow]

end Sys2Proof
end

