-- ==== Sys2Proof/Laws/State.lean ====
section
/-! SUPPORT. One lemma per field per update of the state, so that no proof unfolds a record update. -/

namespace Sys2Proof.Machine

@[simp] theorem State.replaceRaw_raw (s : State) (b : List Byte) :
    (s.replaceRaw b).raw = b := rfl
@[simp] theorem State.replaceRaw_sheet (s : State) (b : List Byte) :
    (s.replaceRaw b).sheet = s.sheet := rfl
@[simp] theorem State.replaceRaw_fault (s : State) (b : List Byte) :
    (s.replaceRaw b).fault = s.fault := rfl
@[simp] theorem State.replaceRaw_faultCmd (s : State) (b : List Byte) :
    (s.replaceRaw b).faultCmd = s.faultCmd := rfl
@[simp] theorem State.replaceRaw_ci (s : State) (b : List Byte) :
    (s.replaceRaw b).ci = s.ci := rfl
@[simp] theorem State.replaceRaw_hostOps (s : State) (b : List Byte) :
    (s.replaceRaw b).hostOps = s.hostOps := rfl
@[simp] theorem State.replaceRaw_readouts (s : State) (b : List Byte) :
    (s.replaceRaw b).readouts = s.readouts := rfl

@[simp] theorem State.replaceSheet_raw (s : State) (e : List Byte) :
    (s.replaceSheet e).raw = s.raw := rfl
@[simp] theorem State.replaceSheet_sheet (s : State) (e : List Byte) :
    (s.replaceSheet e).sheet = e := rfl
@[simp] theorem State.replaceSheet_fault (s : State) (e : List Byte) :
    (s.replaceSheet e).fault = s.fault := rfl
@[simp] theorem State.replaceSheet_faultCmd (s : State) (e : List Byte) :
    (s.replaceSheet e).faultCmd = s.faultCmd := rfl
@[simp] theorem State.replaceSheet_ci (s : State) (e : List Byte) :
    (s.replaceSheet e).ci = s.ci := rfl
@[simp] theorem State.replaceSheet_hostOps (s : State) (e : List Byte) :
    (s.replaceSheet e).hostOps = s.hostOps := rfl
@[simp] theorem State.replaceSheet_readouts (s : State) (e : List Byte) :
    (s.replaceSheet e).readouts = s.readouts := rfl

@[simp] theorem State.complete_raw (s : State) :
    (s.complete).raw = s.raw := rfl
@[simp] theorem State.complete_sheet (s : State) :
    (s.complete).sheet = s.sheet := rfl
@[simp] theorem State.complete_fault (s : State) :
    (s.complete).fault = s.fault := rfl
@[simp] theorem State.complete_faultCmd (s : State) :
    (s.complete).faultCmd = s.faultCmd := rfl
@[simp] theorem State.complete_ci (s : State) :
    (s.complete).ci = s.ci + 1 := rfl
@[simp] theorem State.complete_hostOps (s : State) :
    (s.complete).hostOps = s.hostOps := rfl
@[simp] theorem State.complete_readouts (s : State) :
    (s.complete).readouts = s.readouts := rfl

@[simp] theorem State.raiseFault_raw (s : State) (f : FaultCode) (w : CmdWord) :
    (s.raiseFault f w).raw = s.raw := rfl
@[simp] theorem State.raiseFault_sheet (s : State) (f : FaultCode) (w : CmdWord) :
    (s.raiseFault f w).sheet = s.sheet := rfl
@[simp] theorem State.raiseFault_fault (s : State) (f : FaultCode) (w : CmdWord) :
    (s.raiseFault f w).fault = f.code := rfl
@[simp] theorem State.raiseFault_faultCmd (s : State) (f : FaultCode) (w : CmdWord) :
    (s.raiseFault f w).faultCmd = w := rfl
@[simp] theorem State.raiseFault_ci (s : State) (f : FaultCode) (w : CmdWord) :
    (s.raiseFault f w).ci = s.ci := rfl
@[simp] theorem State.raiseFault_hostOps (s : State) (f : FaultCode) (w : CmdWord) :
    (s.raiseFault f w).hostOps = s.hostOps := rfl
@[simp] theorem State.raiseFault_readouts (s : State) (f : FaultCode) (w : CmdWord) :
    (s.raiseFault f w).readouts = s.readouts := rfl

@[simp] theorem State.resetBlock_raw (s : State) :
    (s.resetBlock).raw = [] := rfl
@[simp] theorem State.resetBlock_sheet (s : State) :
    (s.resetBlock).sheet = [] := rfl
@[simp] theorem State.resetBlock_fault (s : State) :
    (s.resetBlock).fault = 0x00#8 := rfl
@[simp] theorem State.resetBlock_faultCmd (s : State) :
    (s.resetBlock).faultCmd = 0#64 := rfl
@[simp] theorem State.resetBlock_ci (s : State) :
    (s.resetBlock).ci = 0 := rfl
@[simp] theorem State.resetBlock_hostOps (s : State) :
    (s.resetBlock).hostOps = s.hostOps := rfl
@[simp] theorem State.resetBlock_readouts (s : State) :
    (s.resetBlock).readouts = s.readouts := rfl

@[simp] theorem State.withNextOp_raw (s : State) (op : HostOp) :
    (s.withNextOp op).raw = s.raw := rfl
@[simp] theorem State.withNextOp_sheet (s : State) (op : HostOp) :
    (s.withNextOp op).sheet = s.sheet := rfl
@[simp] theorem State.withNextOp_fault (s : State) (op : HostOp) :
    (s.withNextOp op).fault = s.fault := rfl
@[simp] theorem State.withNextOp_faultCmd (s : State) (op : HostOp) :
    (s.withNextOp op).faultCmd = s.faultCmd := rfl
@[simp] theorem State.withNextOp_ci (s : State) (op : HostOp) :
    (s.withNextOp op).ci = s.ci := rfl
@[simp] theorem State.withNextOp_hostOps (s : State) (op : HostOp) :
    (s.withNextOp op).hostOps = op :: s.hostOps := rfl
@[simp] theorem State.withNextOp_readouts (s : State) (op : HostOp) :
    (s.withNextOp op).readouts = s.readouts := rfl

@[simp] theorem State.withHostOps_raw (s : State) (ops : List HostOp) :
    (s.withHostOps ops).raw = s.raw := rfl
@[simp] theorem State.withHostOps_sheet (s : State) (ops : List HostOp) :
    (s.withHostOps ops).sheet = s.sheet := rfl
@[simp] theorem State.withHostOps_fault (s : State) (ops : List HostOp) :
    (s.withHostOps ops).fault = s.fault := rfl
@[simp] theorem State.withHostOps_faultCmd (s : State) (ops : List HostOp) :
    (s.withHostOps ops).faultCmd = s.faultCmd := rfl
@[simp] theorem State.withHostOps_ci (s : State) (ops : List HostOp) :
    (s.withHostOps ops).ci = s.ci := rfl
@[simp] theorem State.withHostOps_hostOps (s : State) (ops : List HostOp) :
    (s.withHostOps ops).hostOps = ops := rfl
@[simp] theorem State.withHostOps_readouts (s : State) (ops : List HostOp) :
    (s.withHostOps ops).readouts = s.readouts := rfl

@[simp] theorem State.rawLen_eq (s : State) : s.rawLen = s.raw.length := rfl
@[simp] theorem State.sheetLen_eq (s : State) : s.sheetLen = s.sheet.length := rfl

@[simp] theorem State.halted_eq_false (s : State) : s.halted = false ↔ s.fault = 0x00#8 := by
  simp [State.halted]
@[simp] theorem State.halted_eq_true (s : State) : s.halted = true ↔ s.fault ≠ 0x00#8 := by
  simp [State.halted]

/-- Two states are equal when all seven fields are. -/
theorem State.ext_fields {s t : State} (h1 : s.raw = t.raw) (h2 : s.sheet = t.sheet) (h3 : s.fault = t.fault)
    (h4 : s.faultCmd = t.faultCmd) (h5 : s.ci = t.ci) (h6 : s.hostOps = t.hostOps) (h7 : s.readouts = t.readouts) :
    s = t := by
  cases s; cases t; simp_all

/-- A readout is the five fields of R12 and the two lengths they give: two states read the same exactly when those agree. -/
theorem State.readout_eq_iff {s t : State} : s.readout = t.readout ↔
    s.raw = t.raw ∧ s.sheet = t.sheet ∧ s.fault = t.fault ∧ s.faultCmd = t.faultCmd ∧ s.ci = t.ci := by
  constructor
  · intro h
    simp only [State.readout, Readout.mk.injEq] at h
    exact ⟨h.1, h.2.1, h.2.2.2.2.1, h.2.2.2.2.2.1, h.2.2.2.2.2.2⟩
  · rintro ⟨h1, h2, h3, h4, h5⟩
    simp [State.readout, h1, h2, h3, h4, h5]

end Sys2Proof.Machine
end

