-- ==== Sys2Proof/Laws/Memory.lean ====
section
/-! SUPPORT. The buffers as address spaces: the cells of every buffer are in the canonical form, equal cells are equal buffers,
and a cell is listed exactly for each address that can be read. -/

namespace Sys2Proof.Machine

theorem cellsRiseFrom_cellsFrom : ∀ (a : Nat) (b : List Byte), cellsRiseFrom a (cellsFrom a b) = true := by
  intro a b
  induction b generalizing a with
  | nil => rfl
  | cons v bs ih => simp [cellsFrom, cellsRiseFrom, ih]

theorem cellsFrom_injective : ∀ (a : Nat) {b b' : List Byte}, cellsFrom a b = cellsFrom a b' → b = b' := by
  intro a b
  induction b generalizing a with
  | nil => intro b' h; cases b' <;> simp_all [cellsFrom]
  | cons v bs ih =>
    intro b' h
    cases b' with
    | nil => simp [cellsFrom] at h
    | cons v' bs' =>
      simp only [cellsFrom, List.cons.injEq, Prod.mk.injEq, true_and] at h
      rw [h.1, ih (a + 1) h.2]

theorem mem_cellsFrom {a a' : Nat} {v : Byte} {b : List Byte} :
    (a', v) ∈ cellsFrom a b ↔ a ≤ a' ∧ b[a' - a]? = some v := by
  induction b generalizing a with
  | nil => simp [cellsFrom]
  | cons w bs ih =>
    simp only [cellsFrom, List.mem_cons, Prod.mk.injEq, ih]
    constructor
    · rintro (⟨rfl, rfl⟩ | ⟨h1, h2⟩)
      · simp
      · refine ⟨by omega, ?_⟩
        rw [show a' - a = (a' - (a + 1)) + 1 by omega]; simpa using h2
    · rintro ⟨h1, h2⟩
      rcases Nat.eq_or_lt_of_le h1 with rfl | h
      · left; simpa [eq_comm] using h2
      · right
        refine ⟨h, ?_⟩
        rw [show a' - a = (a' - (a + 1)) + 1 by omega] at h2; simpa using h2

/-- Whatever an operation leaves in RAW is in the canonical form. -/
theorem State.rawCells_wf (s : State) : Memory.wf s.rawCells = true := cellsRiseFrom_cellsFrom 0 s.raw

/-- Whatever an operation leaves in SHEET is in the canonical form. -/
theorem State.sheetCells_wf (s : State) : Memory.wf s.sheetCells = true := cellsRiseFrom_cellsFrom 0 s.sheet

/-- A cell is listed exactly when its address reads as its byte (R35). -/
theorem State.mem_rawCells {s : State} {a : Nat} {v : Byte} : (a, v) ∈ s.rawCells ↔ readBuf s.raw a = some v := by
  simp [State.rawCells, mem_cellsFrom, readBuf]

/-- A cell is listed exactly when its index reads as its element (R36). -/
theorem State.mem_sheetCells {s : State} {i : Nat} {v : Byte} :
    (i, v) ∈ s.sheetCells ↔ readBuf s.sheet i = some v := by
  simp [State.sheetCells, mem_cellsFrom, readBuf]

end Sys2Proof.Machine
end

