-- ==== Sys2Proof/Laws/Ops.lean ====
section
/-! SUPPORT. What each shared operation can do, said once. -/

namespace Sys2Proof.Machine

/-! ### Buffers -/

theorem readBuf_eq (b : List Byte) (a : Nat) : readBuf b a = b[a]? := rfl

theorem readBuf_of_lt {b : List Byte} {a : Nat} (h : a < b.length) : readBuf b a = some b[a] := by
  simp [readBuf, h]

theorem writeBuf_of_lt {b : List Byte} {a : Nat} (h : a < b.length) (v : Byte) :
    writeBuf b a v = some (b.set a v) := by simp [writeBuf, h]

/-- A write answers exactly when the address exists, and then changes one element and no length. -/
theorem writeBuf_eq_some {b b' : List Byte} {a : Nat} {v : Byte} :
    writeBuf b a v = some b' ↔ a < b.length ∧ b' = b.set a v := by
  unfold writeBuf; split <;> simp_all [eq_comm]

theorem writeBuf_length {b b' : List Byte} {a : Nat} {v : Byte} (h : writeBuf b a v = some b') :
    b'.length = b.length := by
  obtain ⟨_, rfl⟩ := writeBuf_eq_some.1 h; simp

theorem writeBuf_read_same {b b' : List Byte} {a : Nat} {v : Byte} (h : writeBuf b a v = some b') :
    b'[a]? = some v := by
  obtain ⟨ha, rfl⟩ := writeBuf_eq_some.1 h; simp [ha]

theorem writeBuf_read_other {b b' : List Byte} {a a' : Nat} {v : Byte} (h : writeBuf b a v = some b')
    (hne : a' ≠ a) : b'[a']? = b[a']? := by
  obtain ⟨_, rfl⟩ := writeBuf_eq_some.1 h; simp [Ne.symm hne]

/-- A span of existing elements reads as that part of the buffer. -/
theorem readSpan_of_le {b : List Byte} {n : Nat} : ∀ {a : Nat}, a + n ≤ b.length →
    readSpan b a n = some ((b.drop a).take n) := by
  induction n with
  | zero => intro a _; simp [readSpan]
  | succ n ih =>
    intro a h
    have ha : a < b.length := by omega
    rw [readSpan, readBuf_of_lt ha]
    simp only [ih (show a + 1 + n ≤ b.length by omega), List.drop_eq_getElem_cons ha, List.take_succ_cons]

/-! ### Taking a fault, the way back, and the codes -/

theorem FaultCode.code_ne_zero (f : FaultCode) : f.code ≠ 0x00#8 := by cases f <;> decide

theorem FaultCode.code_le_four (f : FaultCode) : f.code.toNat ≤ 4 := by cases f <;> decide

theorem raiseFault_eq (s : State) (f : FaultCode) (w : CmdWord) :
    s.raiseFault f w = { s with fault := f.code, faultCmd := w } := rfl

theorem complete_eq (s : State) : s.complete = { s with ci := s.ci + 1 } := rfl

theorem resetBlock_eq (s : State) :
    s.resetBlock = { State.reset with hostOps := s.hostOps, readouts := s.readouts } := rfl

/-! ### The conditions of the faults -/

theorem decodeStatus_eq_none {n : Nat} : decodeStatus n = none ↔ n % 256 = 0 := by
  simp [decodeStatus, sizeValid]

theorem decodeStatus_eq_some {n : Nat} {f : FaultCode} :
    decodeStatus n = some f ↔ n % 256 ≠ 0 ∧ f = .invalidSize := by
  unfold decodeStatus sizeValid
  by_cases h : n % 256 = 0 <;> simp [h, @eq_comm _ _ f]

theorem encodeStatus_eq_none {size n : Nat} : encodeStatus size n = none ↔ size % 256 = 0 ∧ 4 * size ≤ n := by
  unfold encodeStatus sizeValid
  by_cases h : size % 256 = 0 <;> by_cases h' : 4 * size ≤ n <;> simp_all

theorem encodeStatus_eq_some {size n : Nat} {f : FaultCode} : encodeStatus size n = some f ↔
    (size % 256 ≠ 0 ∧ f = .invalidSize) ∨ (size % 256 = 0 ∧ n < 4 * size ∧ f = .sheetTooShort) := by
  unfold encodeStatus sizeValid
  by_cases h : size % 256 = 0 <;> by_cases h' : 4 * size ≤ n <;> simp_all [@eq_comm _ _ f]

theorem wrpixStatus_eq_none {x y n : Nat} : wrpixStatus x y n = none ↔ x < 128 ∧ y * 128 + x < n := by
  simp [wrpixStatus, pixelIndex]

theorem wrpixStatus_eq_some {x y n : Nat} {f : FaultCode} :
    wrpixStatus x y n = some f ↔ (128 ≤ x ∨ n ≤ y * 128 + x) ∧ f = .bounds := by
  unfold wrpixStatus pixelIndex
  by_cases h : 128 ≤ x ∨ n ≤ y * 128 + x <;> simp_all [@eq_comm _ _ f]

end Sys2Proof.Machine
end

