-- ==== Sys2Proof/Laws/PerInstr.lean ====
section
/-! SUPPORT. Per-command statements about the command as syntax. -/

namespace Sys2Proof.Laws.EncodeMatchesRow

/-- The word the encoder gives a command matches the command's row of the opcode map: its OP is the row's and every reserved bit
is zero (R60, R61). -/
def Statement (i : Instr) : Prop := encode i &&& i.rowMask = i.rowMatch

theorem decode : Statement .decode := by
  unfold Statement; decide

theorem encode (size : Nat) : Statement (.encode size) := by
  have hm : (0xFFFFFF00000000FF#64) = (0xFFFFFF#24 ++ 0#32 ++ 0xFF#8 : BitVec 64) := by decide
  have he : (0x0000000000000002#64) = (0#24 ++ 0#32 ++ 0x02#8 : BitVec 64) := by decide
  rw [Statement, Instr.rowMask, Instr.rowMatch, Sys2Proof.encode, hm, he, BitVec.and_append, BitVec.and_append, opEncode]
  congr 1
  congr 1
  simp

theorem wrpix (x y : Nat) (v : Byte) : Statement (.wrpix x y v) := by
  have hm : (0xFFFF0000000000FF#64) = (0xFFFF#16 ++ 0#8 ++ 0#24 ++ 0#8 ++ 0xFF#8 : BitVec 64) := by decide
  have he : (0x0000000000000003#64) = (0#16 ++ 0#8 ++ 0#24 ++ 0#8 ++ 0x03#8 : BitVec 64) := by decide
  have ho : (0x03#8 &&& 0xFF#8) = 0x03#8 := by decide
  rw [Statement, Instr.rowMask, Instr.rowMatch, Sys2Proof.encode, hm, he, BitVec.and_append, BitVec.and_append,
    BitVec.and_append, BitVec.and_append, opWrpix, ho]
  simp only [BitVec.zero_and, BitVec.and_zero]

end Sys2Proof.Laws.EncodeMatchesRow
end

