-- ==== Sys2Proof/Laws/Step.lean ====
section
/-! SUPPORT. What each meaning, each host operation and a step can answer, said once. -/

namespace Sys2Proof.Machine

theorem execDecode_cases (s : State) :
    (∃ f, decodeStatus s.raw.length = some f ∧ execDecode s = .next (s.raiseFault f (encode .decode))) ∨
    (decodeStatus s.raw.length = none ∧ deinterleave s.raw s.raw.length = none ∧ execDecode s = .fault .noRawByte) ∨
    (∃ e, decodeStatus s.raw.length = none ∧ deinterleave s.raw s.raw.length = some e ∧
      execDecode s = .next (s.replaceSheet e).complete) := by
  unfold execDecode
  rw [State.rawLen_eq]
  rcases decodeStatus s.raw.length with _ | f
  · rcases deinterleave s.raw s.raw.length with _ | e <;> simp
  · simp

theorem execEncode_cases (size : Nat) (s : State) :
    (∃ f, encodeStatus size s.sheet.length = some f ∧
      execEncode size s = .next (s.raiseFault f (encode (.encode size)))) ∨
    (encodeStatus size s.sheet.length = none ∧ interleave s.sheet size = none ∧
      execEncode size s = .fault .noSheetElement) ∨
    (∃ b, encodeStatus size s.sheet.length = none ∧ interleave s.sheet size = some b ∧
      execEncode size s = .next (s.replaceRaw b).complete) := by
  unfold execEncode
  rw [State.sheetLen_eq]
  rcases encodeStatus size s.sheet.length with _ | f
  · rcases interleave s.sheet size with _ | b <;> simp
  · simp

/-- WRPIX never stops: its check is the bound of its write. -/
theorem execWrpix_cases (x y : Nat) (v : Byte) (s : State) :
    (∃ f, wrpixStatus x y s.sheet.length = some f ∧
      execWrpix x y v s = .next (s.raiseFault f (encode (.wrpix x y v)))) ∨
    (wrpixStatus x y s.sheet.length = none ∧
      execWrpix x y v s = .next (s.replaceSheet (s.sheet.set (pixelIndex x y) v)).complete) := by
  unfold execWrpix
  rw [State.sheetLen_eq]
  rcases h : wrpixStatus x y s.sheet.length with _ | f
  · have hb : pixelIndex x y < s.sheet.length := (wrpixStatus_eq_none.1 h).2
    simp [writeBuf_of_lt hb]
  · simp

theorem hostIssue_halted {w : CmdWord} {s : State} (h : s.fault ≠ 0x00#8) : hostIssue w s = .next s := by
  unfold hostIssue; rw [if_pos (State.halted_eq_true s |>.2 h)]

theorem hostIssue_running {w : CmdWord} {s : State} (h : s.fault = 0x00#8) : hostIssue w s = issueDecoded w s := by
  unfold hostIssue; rw [if_neg (by simp [State.halted, h])]

theorem step_idle {s : State} (h : s.hostOps = []) : step s = .next s := by
  unfold step serveHost; rw [h]

theorem step_op {s : State} {op : HostOp} {rest : List HostOp} (h : s.hostOps = op :: rest) :
    step s = perform op (s.withHostOps rest) := by
  unfold step serveHost; rw [h]; rfl

/-- No meaning touches the host's side. -/
theorem exec_host_side {i : Instr} {s t : State} (h : exec i s = .next t) :
    t.hostOps = s.hostOps ∧ t.readouts = s.readouts := by
  cases i with
  | decode =>
    rcases execDecode_cases s with ⟨f, _, e⟩ | ⟨_, _, e⟩ | ⟨x, _, _, e⟩ <;>
      · rw [exec, e] at h; cases h <;> exact ⟨rfl, rfl⟩
  | encode size =>
    rcases execEncode_cases size s with ⟨f, _, e⟩ | ⟨_, _, e⟩ | ⟨x, _, _, e⟩ <;>
      · rw [exec, e] at h; cases h <;> exact ⟨rfl, rfl⟩
  | wrpix x y v =>
    rcases execWrpix_cases x y v s with ⟨f, _, e⟩ | ⟨_, e⟩ <;>
      · rw [exec, e] at h; cases h; exact ⟨rfl, rfl⟩

/-- What HOST_ISSUE can do: nothing while halted, an ILLEGAL_COMMAND fault, or the decoded command's meaning. -/
theorem hostIssue_cases (w : CmdWord) (s : State) :
    (s.fault ≠ 0x00#8 ∧ hostIssue w s = .next s) ∨
    (s.fault = 0x00#8 ∧ ∃ why, decodeWord w = .illegal why ∧
      hostIssue w s = .next (s.raiseFault .illegalCommand w)) ∨
    (s.fault = 0x00#8 ∧ ∃ i, decodeWord w = .command i ∧ hostIssue w s = exec i s) := by
  by_cases h : s.fault = 0x00#8
  · right
    rw [hostIssue_running h, issueDecoded]
    rcases hd : decodeWord w with i | why
    · right; exact ⟨h, i, rfl, rfl⟩
    · left; exact ⟨h, why, rfl, rfl⟩
  · left; exact ⟨h, hostIssue_halted h⟩

/-- A host operation leaves the operations still to come as they are. -/
theorem perform_hostOps {op : HostOp} {s t : State} (h : perform op s = .next t) : t.hostOps = s.hostOps := by
  cases op with
  | loadRaw b => simp only [perform, hostLoadRaw] at h; split at h <;> cases h; rfl
  | loadSheet e => simp only [perform, hostLoadSheet] at h; split at h <;> cases h; rfl
  | read => cases h; rfl
  | reset => cases h; rfl
  | issue w =>
    rw [perform] at h
    rcases hostIssue_cases w s with ⟨_, e⟩ | ⟨_, _, _, e⟩ | ⟨_, i, _, e⟩
    · rw [e] at h; cases h; rfl
    · rw [e] at h; cases h; rfl
    · rw [e] at h; exact (exec_host_side h).1

theorem core_run_eq (k : Nat) (s : State) : Sys2Proof.core.run k s = stepMany k s := by
  induction k generalizing s with
  | zero => rfl
  | succ k ih =>
    refine (Host.Core.run.eq_2 Sys2Proof.core s k).trans ?_
    rw [stepMany]
    rcases h : step s with t | r | r
    · rw [show Sys2Proof.core.step s = .next t from h]; exact ih t
    · rw [show Sys2Proof.core.step s = .fault r from h]; rfl
    · rw [show Sys2Proof.core.step s = .refused r from h]; rfl

theorem performAll_nil (s : State) : performAll [] s = .next (s.withHostOps []) := rfl

/-- A run is its first operation, then the rest. -/
theorem performAll_cons (op : HostOp) (ops : List HostOp) (s : State) :
    performAll (op :: ops) s =
      match perform op (s.withHostOps ops) with
      | .next t => performAll ops t
      | .fault r => .fault r
      | .refused r => .refused r := by
  have hs : step (s.withHostOps (op :: ops)) = perform op (s.withHostOps ops) := step_op rfl
  rw [performAll, List.length_cons, stepMany, hs]
  rcases h : perform op (s.withHostOps ops) with t | r | r
  · have ht : t.withHostOps ops = t := by
      have := perform_hostOps h
      rw [State.withHostOps_hostOps] at this
      cases t; simp_all [State.withHostOps]
    simp only [performAll, ht]
  · rfl
  · rfl

end Sys2Proof.Machine
end

