-- ==== Sys2Proof/Laws/Units.lean ====
section
/-! SUPPORT. What the combiner, the splitter and the two loops do, and the orders they visit the groups in. -/

namespace Sys2Proof.Machine

/-! ### Bits -/

theorem bitOf_eq_getLsbD (v : Byte) (b : Nat) : bitOf v b = (v.getLsbD b).toNat := by
  rw [bitOf, BitVec.getLsbD, Nat.and_one_is_mod, Nat.testBit, Nat.one_and_eq_mod_two]
  rcases Nat.mod_two_eq_zero_or_one (v.toNat >>> b) with h | h <;> simp [h]

theorem bitOf_lt_two (v : Byte) (b : Nat) : bitOf v b < 2 := by
  rw [bitOf_eq_getLsbD]; cases v.getLsbD b <;> decide

theorem combine_toNat (lo hi : Byte) (b : Nat) : (combine lo hi b).toNat = bitOf lo b + 2 * bitOf hi b := by
  have := bitOf_lt_two lo b
  have := bitOf_lt_two hi b
  simp [combine, BitVec.toNat_ofNat]; omega

theorem combine8_length (lo hi : Byte) : (combine8 lo hi).length = 8 := rfl

theorem combine8_getElem? (lo hi : Byte) {j : Nat} (h : j < 8) :
    (combine8 lo hi)[j]? = some (combine lo hi (7 - j)) := by
  match j, h with
  | 0, _ | 1, _ | 2, _ | 3, _ | 4, _ | 5, _ | 6, _ | 7, _ => rfl

theorem shiftIn_getLsbD (acc : Byte) {bit : Nat} (h : bit < 2) (j : Nat) :
    (shiftIn acc bit).getLsbD j = (decide (j < 8) && if j = 0 then decide (bit = 1) else acc.getLsbD (j - 1)) := by
  rw [shiftIn, BitVec.getLsbD_ofNat, Nat.testBit_and, Nat.testBit_or, Nat.testBit_shiftLeft]
  rcases Nat.eq_zero_or_pos j with rfl | hj
  · rcases (show bit = 0 ∨ bit = 1 by omega) with rfl | rfl <;> simp
  · by_cases h8 : j < 8
    · have hm : Nat.testBit 0xFF j = true := by
        match j, h8 with
        | 0, _ | 1, _ | 2, _ | 3, _ | 4, _ | 5, _ | 6, _ | 7, _ => decide
      have hb : bit.testBit j = false :=
        Nat.testBit_lt_two_pow (Nat.lt_of_lt_of_le h (by
          calc 2 = 2 ^ 1 := rfl
            _ ≤ 2 ^ j := Nat.pow_le_pow_right (by decide) hj))
      simp [hm, hb, h8, Nat.pos_iff_ne_zero.1 hj, BitVec.getLsbD, Nat.one_le_iff_ne_zero]
    · simp [h8]

/-- After `es` the accumulators hold the bits of `es`, the last element at the bottom, above them what they held before. -/
theorem getPlaneFrom_getLsbD (es : List Byte) : ∀ (start : Byte × Byte) (j : Nat), j < 8 →
    (getPlaneFrom start es).1.getLsbD j =
      (if h : j < es.length then (es[es.length - 1 - j]).getLsbD 0 else start.1.getLsbD (j - es.length)) ∧
    (getPlaneFrom start es).2.getLsbD j =
      (if h : j < es.length then (es[es.length - 1 - j]).getLsbD 1 else start.2.getLsbD (j - es.length)) := by
  induction es with
  | nil => intro start j hj; simp [getPlaneFrom]
  | cons e es ih =>
    intro start j hj
    have := ih (splitStep start e) j hj
    rw [show getPlaneFrom start (e :: es) = getPlaneFrom (splitStep start e) es from rfl, this.1, this.2]
    rcases Nat.lt_trichotomy j es.length with h | h | h
    · have h1 : j < (e :: es).length := by rw [List.length_cons]; omega
      have h2 : (e :: es)[(e :: es).length - 1 - j]'(by omega) = es[es.length - 1 - j] := by
        rw [List.getElem_cons, dif_neg (by rw [List.length_cons]; omega)]
        congr 1
        rw [List.length_cons]; omega
      rw [dif_pos h, dif_pos h1, dif_pos h, dif_pos h1, h2]
      exact ⟨rfl, rfl⟩
    · subst h
      have h1 : es.length < (e :: es).length := by rw [List.length_cons]; omega
      have h2 : (e :: es)[(e :: es).length - 1 - es.length]'(by omega) = e := by simp
      rw [dif_neg (Nat.lt_irrefl _), dif_neg (Nat.lt_irrefl _), dif_pos h1, dif_pos h1, h2, Nat.sub_self, splitStep,
        shiftIn_getLsbD _ (bitOf_lt_two _ _), shiftIn_getLsbD _ (bitOf_lt_two _ _), bitOf_eq_getLsbD, bitOf_eq_getLsbD]
      constructor
      · cases e.getLsbD 0 <;> simp
      · cases e.getLsbD 1 <;> simp
    · have h1 : ¬ j < es.length := by omega
      have h2 : ¬ j < (e :: es).length := by rw [List.length_cons]; omega
      have h3 : j - es.length ≠ 0 := by omega
      have h4 : j - es.length < 8 := by omega
      have h5 : j - es.length - 1 = j - (e :: es).length := by rw [List.length_cons]; omega
      rw [dif_neg h1, dif_neg h1, dif_neg h2, dif_neg h2, splitStep, shiftIn_getLsbD _ (bitOf_lt_two _ _),
        shiftIn_getLsbD _ (bitOf_lt_two _ _), if_neg h3, if_neg h3, h5, decide_eq_true h4]
      exact ⟨rfl, rfl⟩

/-! ### The orders -/

theorem pixelIndex_eq (x y : Nat) : pixelIndex x y = y * 128 + x := rfl

theorem lowPlaneAddr_eq (k r c : Nat) : lowPlaneAddr k r c = c * 16 + r + 256 * k := rfl

theorem highPlaneAddr_eq (k r c : Nat) : highPlaneAddr k r c = c * 16 + r + 256 * k + 8 := rfl

theorem groupOffset_eq (k r c : Nat) : groupOffset k r c = c + r * 16 + k * 128 := rfl

theorem mem_decodeOrder {n : Nat} {g : Group} : g ∈ decodeOrder n ↔ g.k < n / 256 ∧ g.r < 8 ∧ g.c < 16 := by
  obtain ⟨k, r, c⟩ := g
  simp [decodeOrder]

theorem mem_encodeOrder {n : Nat} {g : Group} : g ∈ encodeOrder n ↔ g.k < n / 256 ∧ g.r < 8 ∧ g.c < 16 := by
  obtain ⟨k, r, c⟩ := g
  simp [encodeOrder]
  tauto

theorem highPlaneAddr_lt {n k r c : Nat} (hk : k < n / 256) (hr : r < 8) (hc : c < 16) : highPlaneAddr k r c < n := by
  rw [highPlaneAddr_eq]; omega

theorem lowPlaneAddr_lt {n k r c : Nat} (hk : k < n / 256) (hr : r < 8) (hc : c < 16) : lowPlaneAddr k r c < n := by
  rw [lowPlaneAddr_eq]; omega

theorem groupOffset_span_le {n k r c : Nat} (hk : k < n / 256) (hr : r < 8) (hc : c < 16) :
    8 * groupOffset k r c + 8 ≤ 4 * n := by
  rw [groupOffset_eq]; omega

/-- Two nested loops over ranges are one loop over the product. -/
theorem flatMap_range_map_range {α : Type} (m w : Nat) (f : Nat → Nat → α) :
    ((List.range m).flatMap fun i => (List.range w).map (f i)) = (List.range (m * w)).map fun q => f (q / w) (q % w) := by
  induction m with
  | zero => simp
  | succ m ih =>
    rw [List.range_succ, List.flatMap_append, ih, Nat.add_mul, Nat.one_mul, List.range_add, List.map_append]
    congr 1
    rw [List.flatMap_singleton, List.map_map]
    apply List.map_congr_left
    intro j hj
    have hj := List.mem_range.1 hj
    have h1 : (m * w + j) / w = m := by
      rw [Nat.mul_comm, Nat.mul_add_div (by omega), Nat.div_eq_of_lt hj]; rfl
    have h2 : (m * w + j) % w = j := by rw [Nat.mul_comm, Nat.mul_add_mod, Nat.mod_eq_of_lt hj]
    simp [h1, h2]

/-- The de-interleaver's groups, numbered: group `q` is tile-row `q / 128`, pixel-row `q / 16 % 8`, tile-column `q % 16`. -/
theorem decodeOrder_eq (n : Nat) : decodeOrder n =
    (List.range (n / 256 * 128)).map fun q => (⟨q / 128, q / 16 % 8, q % 16⟩ : Group) := by
  have h := flatMap_range_map_range (n / 256) 128 fun k j => (⟨k, j / 16, j % 16⟩ : Group)
  have hin : ∀ k : Nat, ((List.range 8).flatMap fun r => (List.range 16).map fun c => (⟨k, r, c⟩ : Group)) =
      (List.range 128).map fun j => (⟨k, j / 16, j % 16⟩ : Group) :=
    fun k => flatMap_range_map_range 8 16 fun r c => (⟨k, r, c⟩ : Group)
  rw [decodeOrder]
  show ((List.range (n / 256)).flatMap fun k =>
    (List.range 8).flatMap fun r => (List.range 16).map fun c => (⟨k, r, c⟩ : Group)) = _
  simp only [hin]
  rw [h]
  apply List.map_congr_left
  intro q _
  congr 1 <;> omega

/-! ### The de-interleaver's loop -/

theorem emitGroup_of_lt {raw : List Byte} {g : Group} (h : highPlaneAddr g.k g.r g.c < raw.length) :
    ∃ lo hi, raw[lowPlaneAddr g.k g.r g.c]? = some lo ∧ raw[highPlaneAddr g.k g.r g.c]? = some hi ∧
      emitGroup raw g = some (combine8 lo hi) := by
  have hl : lowPlaneAddr g.k g.r g.c < raw.length := by simp only [highPlaneAddr] at h; omega
  refine ⟨raw[lowPlaneAddr g.k g.r g.c], raw[highPlaneAddr g.k g.r g.c], by simp [hl], by simp [h], ?_⟩
  simp [emitGroup, readBuf, hl, h]

/-- Where every group's plane bytes exist, the loop answers: 8 elements for each group, group `q` of the order standing at the
elements from `8 * q` up. -/
theorem deinterleaveOver_spec {raw : List Byte} : ∀ {order : List Group},
    (∀ g ∈ order, highPlaneAddr g.k g.r g.c < raw.length) →
    ∃ out, deinterleaveOver raw order = some out ∧ out.length = 8 * order.length ∧
      ∀ q (hq : q < order.length), ∀ j < 8, ∃ px, emitGroup raw order[q] = some px ∧ out[8 * q + j]? = px[j]? := by
  intro order
  induction order with
  | nil => intro _; exact ⟨[], rfl, rfl, fun q hq => absurd hq (by simp)⟩
  | cons g rest ih =>
    intro h
    obtain ⟨more, hm, hlen, hget⟩ := ih fun g' hg' => h g' (List.mem_cons_of_mem _ hg')
    obtain ⟨lo, hi, _, _, he⟩ := emitGroup_of_lt (h g List.mem_cons_self)
    refine ⟨combine8 lo hi ++ more, by simp [deinterleaveOver, he, hm], by simp [combine8_length, hlen]; omega, ?_⟩
    intro q hq j hj
    cases q with
    | zero =>
      refine ⟨combine8 lo hi, by simpa using he, ?_⟩
      rw [List.getElem?_append_left (by rw [combine8_length]; omega)]
      simp
    | succ q =>
      obtain ⟨px, h1, h2⟩ := hget q (by simpa using hq) j hj
      refine ⟨px, by simpa using h1, ?_⟩
      rw [List.getElem?_append_right (by rw [combine8_length]; omega), combine8_length, ← h2]
      congr 1; omega

/-! ### The interleaver's loop -/

/-- The plane bytes a group of 8 elements gives. -/
def groupPlanes (sheet : List Byte) (g : Group) : Byte × Byte :=
  getPlane ((sheet.drop (8 * groupOffset g.k g.r g.c)).take 8)

theorem placeGroup_of_le {sheet out : List Byte} {g : Group} (hs : 8 * groupOffset g.k g.r g.c + 8 ≤ sheet.length)
    (ho : highPlaneAddr g.k g.r g.c < out.length) :
    placeGroup sheet g out = some ((out.set (lowPlaneAddr g.k g.r g.c) (groupPlanes sheet g).1).set
      (highPlaneAddr g.k g.r g.c) (groupPlanes sheet g).2) := by
  have hl : lowPlaneAddr g.k g.r g.c < out.length := by simp only [highPlaneAddr] at ho; omega
  simp [placeGroup, readSpan_of_le hs, writeBuf, hl, ho, groupPlanes]

theorem lowPlaneAddr_injective {g g' : Group} (hr : g.r < 8) (hc : g.c < 16) (hr' : g'.r < 8) (hc' : g'.c < 16)
    (h : lowPlaneAddr g.k g.r g.c = lowPlaneAddr g'.k g'.r g'.c) : g = g' := by
  obtain ⟨k, r, c⟩ := g
  obtain ⟨k', r', c'⟩ := g'
  simp only [lowPlaneAddr_eq] at *
  simp only [Group.mk.injEq]
  omega

theorem lowPlaneAddr_ne_highPlaneAddr {g g' : Group} (hr : g.r < 8) (hr' : g'.r < 8) :
    lowPlaneAddr g.k g.r g.c ≠ highPlaneAddr g'.k g'.r g'.c := by
  rw [lowPlaneAddr_eq, highPlaneAddr_eq]; omega

/-- Where every group of the order exists on both sides, the loop answers: no length changes, every group of the order has its
plane bytes in place, and an address no group of the order stands at keeps its byte. The order plays no part. -/
theorem interleaveInto_spec {sheet : List Byte} : ∀ {order : List Group} {out : List Byte},
    (∀ g ∈ order, g.r < 8 ∧ g.c < 16 ∧ 8 * groupOffset g.k g.r g.c + 8 ≤ sheet.length ∧
      highPlaneAddr g.k g.r g.c < out.length) →
    ∃ res, interleaveInto sheet order out = some res ∧ res.length = out.length ∧
      (∀ g ∈ order, res[lowPlaneAddr g.k g.r g.c]? = some (groupPlanes sheet g).1 ∧
        res[highPlaneAddr g.k g.r g.c]? = some (groupPlanes sheet g).2) ∧
      ∀ a, (∀ g ∈ order, a ≠ lowPlaneAddr g.k g.r g.c ∧ a ≠ highPlaneAddr g.k g.r g.c) → res[a]? = out[a]? := by
  intro order
  induction order with
  | nil => intro out _; exact ⟨out, rfl, rfl, by simp, fun _ _ => rfl⟩
  | cons g rest ih =>
    intro out h
    obtain ⟨hr, hc, hs, ho⟩ := h g List.mem_cons_self
    have hl : lowPlaneAddr g.k g.r g.c < out.length := by simp only [highPlaneAddr] at ho; omega
    have hlh : lowPlaneAddr g.k g.r g.c ≠ highPlaneAddr g.k g.r g.c := by simp [highPlaneAddr]
    obtain ⟨res, hres, hlen, hmem, hoth⟩ := ih (out := (out.set (lowPlaneAddr g.k g.r g.c) (groupPlanes sheet g).1).set
      (highPlaneAddr g.k g.r g.c) (groupPlanes sheet g).2) fun g' hg' => by
        simpa using h g' (List.mem_cons_of_mem _ hg')
    refine ⟨res, by simp [interleaveInto, placeGroup_of_le hs ho, hres], by simpa using hlen, ?_, ?_⟩
    · intro g' hg'
      by_cases hin : g' ∈ rest
      · exact hmem g' hin
      · obtain rfl : g' = g := by simpa [hin] using hg'
        have key : ∀ g'' ∈ rest, ∀ a, (a = lowPlaneAddr g'.k g'.r g'.c ∨ a = highPlaneAddr g'.k g'.r g'.c) →
            a ≠ lowPlaneAddr g''.k g''.r g''.c ∧ a ≠ highPlaneAddr g''.k g''.r g''.c := by
          intro g'' hg'' a ha
          obtain ⟨hr', hc', _, _⟩ := h g'' (List.mem_cons_of_mem _ hg'')
          have hne : lowPlaneAddr g'.k g'.r g'.c ≠ lowPlaneAddr g''.k g''.r g''.c := fun e =>
            hin (lowPlaneAddr_injective hr hc hr' hc' e ▸ hg'')
          rcases ha with rfl | rfl
          · exact ⟨hne, lowPlaneAddr_ne_highPlaneAddr hr hr'⟩
          · refine ⟨(lowPlaneAddr_ne_highPlaneAddr hr' hr).symm, ?_⟩
            simp only [highPlaneAddr]; omega
        constructor
        · rw [hoth _ fun g'' hg'' => key g'' hg'' _ (.inl rfl)]
          simp [hl, Ne.symm hlh]
        · rw [hoth _ fun g'' hg'' => key g'' hg'' _ (.inr rfl)]
          simp [ho]
    · intro a ha
      obtain ⟨h1, h2⟩ := ha g List.mem_cons_self
      rw [hoth a fun g' hg' => ha g' (List.mem_cons_of_mem _ hg')]
      simp [Ne.symm h1, Ne.symm h2]

end Sys2Proof.Machine
end

