-- ==== Sys2Proof/Tests/Slice0.lean ====
section
/-! SUPPORT. Tests, their expected results taken from spec/95_test_vectors.md or written out by hand from the rule named, and for
each statement with hypotheses a state and operands that meet them all. -/

namespace Sys2Proof.Tests

open Sys2Proof.Machine

/-- The reset block with `n` zero bytes in RAW. -/
def zeroRaw (n : Nat) : State := { State.reset with raw := List.replicate n 0#8 }

/-- The reset block with `n` zero elements in SHEET. -/
def zeroSheet (n : Nat) : State := { State.reset with sheet := List.replicate n 0#8 }

/-- `s` with one command word to come. -/
def issuing (s : State) (w : CmdWord) : State := { s with hostOps := [.issue w] }

/-- A halted block (INVALID_SIZE of a DECODE), as after the first command of program P3. -/
def haltedBlock : State := { State.reset with fault := 0x02#8, faultCmd := 0x01#64 }

/-! ### WellFormed: an ill-formed command for each check -/

theorem test_size_of_33_bits_is_ill_formed : (Instr.encode 4294967296).wellFormed = false := by decide
theorem test_column_of_9_bits_is_ill_formed : (Instr.wrpix 256 0 0#8).wellFormed = false := by decide
theorem test_row_of_25_bits_is_ill_formed : (Instr.wrpix 0 16777216 0#8).wellFormed = false := by decide
theorem test_widest_operands_are_well_formed :
    (Instr.encode 4294967295).wellFormed = true ∧ (Instr.wrpix 255 16777215 255#8).wellFormed = true := by decide

/-! ### The geometry (R8) -/

/-- The literals of R5 agree with each other as R8 says. -/
theorem test_geometry_literals_agree :
    Config.tileBytes = Config.bpp * Config.tileRows ∧ Config.planeGap = Config.tileRows ∧
    Config.tileRowBytes = Config.tilesPerRow * Config.tileBytes ∧
    Config.canvasWidth = Config.tilesPerRow * Config.tileCols ∧
    Config.canvasWidth * Config.tileRows = Config.expansion * Config.tileRowBytes := by decide

/-! ### Decoding: words of 95_test_vectors.md 2.3, and the same written bit by bit from R57 to R59 -/

/-- R57: reserved zeros, OP = 00000001. -/
theorem test_decode_word_bits : decodeWord
    0b0000000000000000000000000000000000000000000000000000000000000001#64 = .command .decode := by decide
/-- R58: 24 zeros, SIZE = 0x00000100, OP = 00000010 (V-K2). -/
theorem test_encode_word_bits : decodeWord
    (0b000000000000000000000000#24 ++ 0b00000000000000000000000100000000#32 ++ 0b00000010#8) =
    .command (.encode 256) := by decide
/-- R59: 16 zeros, V = 2, Y = 7, X = 127, OP = 00000011 (V-K8). -/
theorem test_wrpix_word_bits : decodeWord
    (0b0000000000000000#16 ++ 0b00000010#8 ++ 0b000000000000000000000111#24 ++ 0b01111111#8 ++ 0b00000011#8) =
    .command (.wrpix 127 7 2#8) := by decide
/-- V-K11 to V-K13: reserved opcodes. -/
theorem test_reserved_opcodes : decodeWord 0x0#64 = .illegal .reservedOpcode ∧
    decodeWord 0x4#64 = .illegal .reservedOpcode ∧ decodeWord 0xFF#64 = .illegal .reservedOpcode := by decide
/-- V-K14 to V-K17: reserved bits. -/
theorem test_reserved_bits : decodeWord 0x0000000000000101#64 = .illegal .reservedBits ∧
    decodeWord 0x0000010000000001#64 = .illegal .reservedBits ∧
    decodeWord 0x0100000000010002#64 = .illegal .reservedBits ∧
    decodeWord 0x0001000000000003#64 = .illegal .reservedBits := by decide
theorem test_short_stream_is_truncated :
    decodeBytes [0x01#8, 0#8, 0#8] = (.illegal .truncated, [0x01#8, 0#8, 0#8]) := by decide
/-- R65's examples of the encoder. -/
theorem test_encoder_examples : encode (.encode 256) = 0x0000000000010002#64 ∧
    encode (.wrpix 0 0 3#8) = 0x0000030000000003#64 ∧ encode .decode = 0x0000000000000001#64 := by decide
/-- The rows of the opcode table, and a WRPIX through the table's bit numbering. -/
theorem test_table_words : decodeTableWord 64 0x1 = some .decode ∧ decodeTableWord 64 0x2 = some (.encode 0) ∧
    decodeTableWord 64 0x0000020000077F03 = some (.wrpix 127 7 2#8) ∧ decodeTableWord 8 0x101 = some .decode ∧
    decodeTableWord 64 0x0 = none := by decide

/-! ### The assembler (R65, R66) -/

theorem test_assemble_encode : assembleLine ['E', 'N', 'C', 'O', 'D', 'E', ' ', '2', '5', '6'] =
    .emits (.issue 0x0000000000010002#64) := by decide
theorem test_assemble_wrpix_with_comment :
    assembleLine ['W', 'R', 'P', 'I', 'X', ' ', '0', ',', ' ', '0', 'x', '0', ',', '3', ' ', ';', ' ', 'x'] =
    .emits (.issue 0x0000030000000003#64) := by decide
theorem test_assemble_rejects_value_256 :
    assembleLine ['W', 'R', 'P', 'I', 'X', ' ', '0', ',', '0', ',', '2', '5', '6'] = .rejected := by decide
theorem test_assemble_rejects_lower_case : assembleLine ['d', 'e', 'c', 'o', 'd', 'e'] = .rejected := by decide

/-! ### The units: vectors of 95_test_vectors.md 2.1 and 2.2 -/

/-- V-C5 and V-C8. -/
theorem test_combiner_vectors : combine8 0x80#8 0x01#8 = [1#8, 0#8, 0#8, 0#8, 0#8, 0#8, 0#8, 2#8] ∧
    combine8 0x0F#8 0x3C#8 = [0#8, 0#8, 2#8, 2#8, 3#8, 3#8, 1#8, 1#8] := by decide
/-- V-S6 and V-S9. -/
theorem test_splitter_vectors : getPlane [1#8, 0#8, 0#8, 0#8, 0#8, 0#8, 0#8, 2#8] = (0x80#8, 0x01#8) ∧
    getPlane [4#8, 5#8, 6#8, 7#8, 0xFF#8, 0xFE#8, 0xFD#8, 0xFC#8] = (0x5A#8, 0x3C#8) := by decide

/-! ### The commands, at most two each -/

/-- V-D4: tile 5, pixel-row 3: the group read from RAW 83 and 91 is the 54th the traversal emits, elements 424 to 431. -/
theorem test_decode_reads_tile_five :
    emitGroup (List.replicate 83 0#8 ++ [0x81#8, 0#8, 0#8, 0#8, 0#8, 0#8, 0#8, 0#8, 0x01#8]) ⟨0, 3, 5⟩ =
      some [1#8, 0#8, 0#8, 0#8, 0#8, 0#8, 0#8, 3#8] ∧ (decodeOrder 256)[53]? = some ⟨0, 3, 5⟩ ∧ 53 * 8 = 424 := by
  decide +kernel
/-- V-D9: 16 bytes fault, and the word is recorded. -/
theorem test_decode_of_16_bytes_faults :
    (nextState? (exec .decode (zeroRaw 16))).map (fun t => (t.fault, t.faultCmd, t.ci, t.sheet.length)) =
    some (0x02#8, 0x0000000000000001#64, 0, 0) := by decide +kernel
/-- V-E8: the first group of a sheet whose elements exceed 3, split into bytes 0 and 8 of the tile. -/
theorem test_encode_splits_low_bits :
    placeGroup [4#8, 5#8, 6#8, 7#8, 0xFF#8, 0xFE#8, 0xFD#8, 0xFC#8] ⟨0, 0, 0⟩ (List.replicate 9 0#8) =
    some [0x5A#8, 0#8, 0#8, 0#8, 0#8, 0#8, 0#8, 0#8, 0x3C#8] := by decide +kernel
/-- R77 with SIZE 0: RAW becomes empty, whatever it held, and the command completes. -/
theorem test_encode_of_size_zero :
    nextState? (exec (.encode 0) (zeroRaw 3)) = some { State.reset with ci := 1 } := by decide
/-- V-E14: INVALID_SIZE is checked before SHEET_TOO_SHORT. -/
theorem test_encode_300_is_invalid_size :
    (nextState? (exec (.encode 300) (zeroSheet 1024))).map (fun t => (t.fault, t.raw.length)) =
    some (0x02#8, 0) := by decide +kernel
/-- V-W8: the partial last row of a sheet of 1100 elements. -/
theorem test_wrpix_in_partial_row :
    (nextState? (exec (.wrpix 10 8 7#8) (zeroSheet 1100))).map (fun t => (t.sheet.length, t.sheet[1034]?, t.fault)) =
    some (1100, some 7#8, 0x00#8) := by decide +kernel
/-- V-W3: a column of 128 faults although the element exists. -/
theorem test_wrpix_column_128_faults :
    (nextState? (exec (.wrpix 128 0 1#8) (zeroSheet 1024))).map (fun t => (t.fault, t.faultCmd, t.sheet[128]?)) =
    some (0x04#8, 0x0000010000008003#64, some 0#8) := by decide +kernel

/-! ### The host port -/

/-- V-F1: the all-zero word faults from reset. -/
theorem test_zero_word_faults :
    nextState? (step (issuing State.reset 0#64)) = some { State.reset with fault := 0x01#8 } := by decide
/-- V-F2: a halted block refuses DECODE. -/
theorem test_halted_refuses_decode : nextState? (step (issuing haltedBlock 1#64)) = some haltedBlock := by decide
/-- V-F4: reset from a halted block. -/
theorem test_reset_clears_halt :
    nextState? (step { haltedBlock with hostOps := [.reset] }) = some State.reset := by decide
/-- V-F5: DECODE in the reset state, through the host's table numbering. -/
theorem test_decode_first_after_reset :
    nextState? (step (State.reset.withFetchWord 64 0x1)) = some { State.reset with ci := 1 } := by decide

/-! ### Witnesses: for each statement with hypotheses, values that meet them all -/

theorem witness_EncodedCommandsDecodeBack : Instr.wellFormed .decode = true ∧
    (Instr.encode 4294967295).wellFormed = true ∧ (Instr.wrpix 255 16777215 0#8).wellFormed = true := by decide

theorem witness_DecodedWordsEncodeBack : decodeWord 0x0000FFFFFFFFFF03#64 = .command (.wrpix 255 16777215 255#8) ∧
    decodeWord 0x000000FFFFFFFF02#64 = .command (.encode 4294967295) ∧ decodeWord 1#64 = .command .decode := by decide

theorem witness_DecoderReadsEveryField :
    (1#64).toNat % 256 = 1 ∧ (1#64).toNat / 2 ^ 8 = 0 ∧
    (0x000000FFFFFFFF02#64).toNat % 256 = 2 ∧ (0x000000FFFFFFFF02#64).toNat / 2 ^ 40 = 0 ∧
    (0x0000FFFFFFFFFF03#64).toNat % 256 = 3 ∧ (0x0000FFFFFFFFFF03#64).toNat / 2 ^ 48 = 0 ∧
    ¬ ((0x0001000000000003#64).toNat % 256 = 1 ∧ (0x0001000000000003#64).toNat / 2 ^ 8 = 0) ∧
    ¬ ((0x0001000000000003#64).toNat % 256 = 2 ∧ (0x0001000000000003#64).toNat / 2 ^ 40 = 0) ∧
    ¬ ((0x0001000000000003#64).toNat % 256 = 3 ∧ (0x0001000000000003#64).toNat / 2 ^ 48 = 0) := by decide

theorem witness_WordSpellsCommandOfItsRow :
    (1#64) &&& 0xFFFFFFFFFFFFFFFF#64 = 1#64 ∧ (0x000000FFFFFFFF02#64) &&& 0xFFFFFF00000000FF#64 = 2#64 ∧
    (0x0000FFFFFFFFFF03#64) &&& 0xFFFF0000000000FF#64 = 3#64 ∧
    ((4#64).extractLsb' 0 8 ≠ 0x01#8 ∧ (4#64).extractLsb' 0 8 ≠ 0x02#8 ∧ (4#64).extractLsb' 0 8 ≠ 0x03#8) := by decide

theorem witness_CommandStreamIsLittleEndian : (7 : Nat) < 8 ∧ (bytesOfWord 0x0000020000077F03#64)[7]? = some 0#8 ∧
    (bytesOfWord 0x0000020000077F03#64)[0]? = some 0x03#8 := by decide

theorem witness_AssemblerChecksOperandWidths :
    parseNumber ['0', 'x', 'F', 'F', 'F', 'F', 'f', 'f', 'f', 'f'] = some 4294967295 ∧
    parseNumber ['4', '2', '9', '4', '9', '6', '7', '2', '9', '6'] = some 4294967296 ∧
    parseNumber ['2', '5', '5'] = some 255 ∧ parseNumber ['2', '5', '6'] = some 256 := by decide

theorem witness_CombinerLanesReadOneBitOfEachPlane : (7 : Nat) < 8 ∧ (0 : Nat) < 8 := by decide

theorem witness_DecodedElementsAreTwoBits : (7 : Nat) < 8 ∧ (2 : Nat) ≤ 2 ∧
    (0x00#8).getLsbD 7 = false ∧ (0x80#8).getLsbD 7 = true ∧ (zeroRaw 256).raw.length % 256 = 0 ∧
    (zeroRaw 0).raw.length % 256 = 0 := by decide +kernel

theorem witness_SplitterTakesTwoBitsOfEachElement : (List.replicate 8 0xFF#8).length = 8 ∧ (7 : Nat) < 8 := by decide

theorem witness_SplitterAndCombinerAreInverse : (List.replicate 8 3#8).length = 8 ∧
    ∀ e ∈ List.replicate 8 3#8, e.toNat < 4 := by decide

theorem witness_PixelMapIsBijection : 256 % 256 = 0 ∧ 1023 < 4 * 256 ∧ 255 < 256 ∧ 7 < 8 ∧ planeOf 255 = 1 ∧
    planeOf 7 = 0 := by decide

theorem witness_SheetRasterIsRowMajor : (127 : Nat) < 128 := by decide

theorem witness_DeinterleaverMatchesClosedForm : 256 % 256 = 0 ∧ 256 ≤ (zeroRaw 256).raw.length ∧ 1023 < 4 * 256 ∧
    0 < 256 / 256 ∧ 7 < 8 ∧ 15 < 16 := by decide +kernel

/-- The hypotheses on the order are met by the de-interleaver's own order, which is not the interleaver's. -/
theorem witness_InterleaverWritesEveryByteOnce : 256 % 256 = 0 ∧ 4 * 256 ≤ (zeroSheet 1024).sheet.length ∧
    (∀ g, g ∈ decodeOrder 256 ↔ g ∈ encodeOrder 256) ∧ (decodeOrder 256)[1]? ≠ (encodeOrder 256)[1]? ∧
    (List.replicate 256 0xFF#8).length = 256 :=
  ⟨rfl, by decide +kernel, fun g => by rw [mem_decodeOrder, mem_encodeOrder], by decide +kernel, by decide +kernel⟩

theorem witness_DecodeBuildsFreshSheet : (zeroRaw 256).raw.length % 256 = 0 ∧
    1023 < 4 * (zeroRaw 256).raw.length := by decide +kernel

theorem witness_DecodedSheetSize : (zeroRaw 512).raw.length % 256 = 0 ∧ (zeroRaw 256).raw.length = 256 := by
  decide +kernel

theorem witness_EncodeRebuildsRaw : 256 % 256 = 0 ∧ 4 * 256 ≤ (zeroSheet 1024).sheet.length ∧ 255 < 256 ∧
    0 % 256 = 0 ∧ 4 * 0 ≤ (zeroSheet 0).sheet.length := by decide +kernel

theorem witness_WrpixStoresOnePixel : 127 < 128 ∧ 7 * 128 + 127 < (zeroSheet 1024).sheet.length ∧
    (128 ≤ 128 ∨ (zeroSheet 1024).sheet.length ≤ 0 * 128 + 128) ∧
    (128 ≤ 0 ∨ (zeroSheet 1024).sheet.length ≤ 8 * 128 + 0) ∧ (0 : Nat) ≠ 7 * 128 + 127 := by decide +kernel

theorem witness_LaterPixelWriteWins : 127 < 128 ∧ 7 * 128 + 127 < (zeroSheet 1024).sheet.length := by decide +kernel

/-- Both forms: with and without a fault. -/
theorem witness_DecodeFrame : (∃ t, exec .decode (zeroRaw 0) = .next t ∧ (zeroRaw 0).raw.length % 256 = 0) ∧
    ∃ t, exec .decode (zeroRaw 16) = .next t ∧ (zeroRaw 16).raw.length % 256 ≠ 0 :=
  ⟨⟨_, rfl, rfl⟩, ⟨_, rfl, by decide⟩⟩

theorem witness_EncodeFrame :
    (∃ t, exec (.encode 0) (zeroSheet 0) = .next t ∧ 0 % 256 = 0 ∧ 4 * 0 ≤ (zeroSheet 0).sheet.length) ∧
    (∃ t, exec (.encode 16) (zeroSheet 0) = .next t ∧ 16 % 256 ≠ 0) ∧
    ∃ t, exec (.encode 256) (zeroSheet 0) = .next t ∧ (zeroSheet 0).sheet.length < 4 * 256 :=
  ⟨⟨_, rfl, rfl, by decide⟩, ⟨_, rfl, by decide⟩, ⟨_, rfl, by decide⟩⟩

theorem witness_WrpixFrame :
    (∃ t, exec (.wrpix 2 0 7#8) (zeroSheet 3) = .next t ∧ 2 < 128 ∧ 0 * 128 + 2 < (zeroSheet 3).sheet.length) ∧
    (∃ t, exec (.wrpix 3 0 7#8) (zeroSheet 3) = .next t ∧ (zeroSheet 3).sheet.length ≤ 0 * 128 + 3) ∧
    (1 : Nat) ≠ pixelIndex 2 0 :=
  ⟨⟨_, rfl, by decide, by decide⟩, ⟨_, rfl, by decide⟩, by decide⟩

/-- A block that is not halted, with the word to come: the hypotheses the statements on faults share. -/
theorem issuing_running (s : State) (w : CmdWord) (h : s.fault = 0x00#8) :
    (issuing s w).fault = 0x00#8 ∧ (issuing s w).hostOps = .issue w :: [] := ⟨h, rfl⟩

theorem witness_IllegalWordFaults :
    ((issuing State.reset 0x0001000000000003#64).fault = 0x00#8 ∧
      (issuing State.reset 0x0001000000000003#64).hostOps = .issue 0x0001000000000003#64 :: []) ∧
    ((0x4#64).extractLsb' 0 8 ≠ 0x01#8 ∧ (0x4#64).extractLsb' 0 8 ≠ 0x02#8 ∧ (0x4#64).extractLsb' 0 8 ≠ 0x03#8) ∧
    ((0x8000000000000001#64).extractLsb' 0 8 = 0x01#8 ∧ (0x8000000000000001#64).extractLsb' 8 56 ≠ 0) ∧
    ((0x0000010000000002#64).extractLsb' 0 8 = 0x02#8 ∧ (0x0000010000000002#64).extractLsb' 40 24 ≠ 0) ∧
    ((0x0001000000000003#64).extractLsb' 0 8 = 0x03#8 ∧ (0x0001000000000003#64).extractLsb' 48 16 ≠ 0) :=
  ⟨issuing_running _ _ rfl, by decide⟩

theorem witness_SizeNotMultipleOf256Faults :
    ((issuing (zeroRaw 255) 1#64).fault = 0x00#8 ∧ (issuing (zeroRaw 255) 1#64).hostOps = .issue 1#64 :: []) ∧
    (decodeWord 1#64 = .command .decode ∧ (issuing (zeroRaw 255) 1#64).raw.length % 256 ≠ 0) ∧
    (decodeWord 0x0000000000001002#64 = .command (.encode 16) ∧ 16 % 256 ≠ 0) ∧
    ∃ t, step (issuing (zeroRaw 1) 1#64) = .next t ∧ t.fault = 0x02#8 :=
  ⟨issuing_running _ _ rfl, by decide +kernel, by decide, ⟨_, rfl, rfl⟩⟩

theorem witness_ShortSheetFaults :
    ((issuing (zeroSheet 1023) 0x10002#64).fault = 0x00#8 ∧
      (issuing (zeroSheet 1023) 0x10002#64).hostOps = .issue 0x10002#64 :: []) ∧
    (decodeWord 0x10002#64 = .command (.encode 256) ∧ 256 % 256 = 0 ∧
      (issuing (zeroSheet 1023) 0x10002#64).sheet.length < 4 * 256) ∧
    ∃ t, step (issuing State.reset 0x10002#64) = .next t ∧ t.fault = 0x03#8 :=
  ⟨issuing_running _ _ rfl, by decide +kernel, ⟨_, rfl, rfl⟩⟩

theorem witness_PixelOutsideSheetFaults :
    ((issuing (zeroSheet 1024) 0x0000010000008003#64).fault = 0x00#8 ∧
      (issuing (zeroSheet 1024) 0x0000010000008003#64).hostOps = .issue 0x0000010000008003#64 :: []) ∧
    (decodeWord 0x0000010000008003#64 = .command (.wrpix 128 0 1#8) ∧
      (128 ≤ 128 ∨ (zeroSheet 1024).sheet.length ≤ 0 * 128 + 128)) ∧
    ∃ t, step (issuing State.reset 3#64) = .next t ∧ t.fault = 0x04#8 :=
  ⟨issuing_running _ _ rfl, by decide +kernel, ⟨_, rfl, rfl⟩⟩

/-- Each clause, with 300 both not a multiple of 256 and too long for the sheet. -/
theorem witness_FaultsAreReportedInOrder :
    ((issuing State.reset 0#64).fault = 0x00#8 ∧ (issuing State.reset 0#64).hostOps = .issue 0#64 :: []) ∧
    decodeWord 0#64 = .illegal .reservedOpcode ∧ decodeWord 1#64 = .command .decode ∧
    decodeWord 0x0000000000012C02#64 = .command (.encode 300) ∧ decodeWord 3#64 = .command (.wrpix 0 0 0#8) :=
  ⟨issuing_running _ _ rfl, by decide⟩

theorem witness_FaultEntryIsPrecise : ∃ s t w rest, s.fault = 0x00#8 ∧ s.hostOps = .issue w :: rest ∧
    step s = .next t ∧ t.fault ≠ 0x00#8 :=
  ⟨issuing State.reset 0#64, _, 0#64, [], rfl, rfl, rfl, by decide⟩

theorem witness_HaltedBlockRefusesWords : haltedBlock.fault ≠ 0x00#8 ∧
    (issuing haltedBlock 1#64).hostOps = .issue 1#64 :: [] ∧
    (haltedBlock.withHostOps [.loadRaw []]).hostOps = .loadRaw [] :: [] ∧
    ([] : List Byte).length ≤ Config.maxRawBytes ∧
    (haltedBlock.withHostOps [.loadSheet []]).hostOps = .loadSheet [] :: [] ∧
    ([] : List Byte).length ≤ 4 * Config.maxRawBytes ∧
    (haltedBlock.withHostOps [.read]).hostOps = .read :: [] ∧
    ((issuing State.reset 1#64).fault = 0x00#8 ∧ (issuing State.reset 1#64).hostOps = .issue 1#64 :: []) :=
  ⟨by decide, rfl, rfl, Nat.zero_le _, rfl, Nat.zero_le _, rfl, rfl, rfl⟩

theorem witness_OnlyResetLeavesHaltedState : haltedBlock.fault ≠ 0x00#8 ∧
    HostOp.reset ∉ [HostOp.issue 1#64, .read] ∧
    (∃ t, performAll [.issue 1#64, .read] haltedBlock = .next t) ∧
    (haltedBlock.withHostOps [.reset]).hostOps = .reset :: [] :=
  ⟨by decide, by decide, ⟨_, rfl⟩, rfl⟩

theorem witness_ResetClearsEverything : ∃ s t op rest, s.hostOps = op :: rest ∧ s.fault ≠ 0x00#8 ∧
    step s = .next t ∧ t.fault = 0x00#8 :=
  ⟨haltedBlock.withHostOps [.reset], _, .reset, [], rfl, by decide, rfl, rfl⟩

/-- Both clauses: the empty region, and one byte more than the block holds. -/
theorem witness_LoadRawReplacesRaw :
    (haltedBlock.withHostOps [.loadRaw []]).hostOps = .loadRaw [] :: [] ∧
    ([] : List Byte).length ≤ Config.maxRawBytes ∧
    Config.maxRawBytes < (List.replicate (Config.maxRawBytes + 1) (0#8)).length :=
  ⟨rfl, Nat.zero_le _, by simp⟩

theorem witness_LoadSheetReplacesSheet :
    (haltedBlock.withHostOps [.loadSheet []]).hostOps = .loadSheet [] :: [] ∧
    ([] : List Byte).length ≤ 4 * Config.maxRawBytes ∧
    4 * Config.maxRawBytes < (List.replicate (4 * Config.maxRawBytes + 1) (0#8)).length :=
  ⟨rfl, Nat.zero_le _, by simp⟩

theorem witness_ReadReturnsEveryField : (haltedBlock.withHostOps [.read]).hostOps = .read :: [] := rfl

theorem witness_StepRunsDecodedCommand : (issuing State.reset 1#64).fault = 0x00#8 ∧
    (issuing State.reset 1#64).hostOps = .issue 1#64 :: [] ∧ decodeWord 1#64 = .command .decode := by decide

theorem witness_IdleBlockKeepsItsState : haltedBlock.hostOps = [] := rfl

/-- Both clauses: a run of one completed command, and a run that faults at its second. -/
theorem witness_CommandIndexCountsCompletions : State.reset.fault = 0x00#8 ∧
    (State.reset.withHostOps [.reset]).hostOps = .reset :: [] ∧
    HostOp.reset ∉ [HostOp.issue 2#64] ∧ HostOp.reset ∉ [HostOp.issue 2#64, .issue 0#64] ∧
    (∃ t, performAll [.issue 2#64] State.reset = .next t ∧ t.fault = 0x00#8) ∧
    ∃ t, performAll [.issue 2#64, .issue 0#64] State.reset = .next t ∧ t.fault ≠ 0x00#8 :=
  ⟨rfl, rfl, by decide, by decide, ⟨_, rfl, rfl⟩, ⟨_, rfl, by decide⟩⟩

theorem witness_NormalEndMeansNoFaultOnTheWay : HostOp.reset ∉ [HostOp.issue 2#64, .issue 1#64] ∧
    (∃ t, runFromReset [.issue 2#64, .issue 1#64] = .next t ∧ t.endedNormally) ∧
    [HostOp.issue 2#64, .issue 1#64] = [.issue 2#64] ++ [.issue 1#64] :=
  ⟨by decide, ⟨_, rfl, rfl, rfl⟩, rfl⟩

/-- The invariant holds of a block that has faulted, with another word to come. -/
theorem witness_StepKeepsStateInvariant : (issuing haltedBlock 1#64).Inv ∧
    ∃ t, step (issuing haltedBlock 1#64) = .next t :=
  ⟨⟨⟨Nat.zero_le _, Nat.zero_le _⟩, by unfold State.faultLegal; decide, fun h => absurd h (by decide)⟩, ⟨_, rfl⟩⟩

theorem witness_RawChangesOnlyByReplacement : ∃ s t, step s = .next t ∧ t.raw ≠ s.raw :=
  ⟨issuing (zeroRaw 1) 2#64, _, rfl, by decide⟩

theorem witness_SheetChangesOnlyByDecodeOrPixel : ∃ s t, step s = .next t ∧ t.sheet ≠ s.sheet :=
  ⟨issuing (zeroSheet 1) 0x0000070000000003#64, _, rfl, by decide⟩

theorem witness_FaultRegistersWrittenOnlyByFaultOrReset :
    ∃ s t, step s = .next t ∧ (t.fault ≠ s.fault ∨ t.faultCmd ≠ s.faultCmd) :=
  ⟨issuing State.reset 0x101#64, _, rfl, .inl (by decide)⟩

/-- Two blocks that read the same, with different pasts and futures. -/
theorem witness_CommandResultDependsOnReadableStateOnly :
    (issuing (zeroSheet 2) 3#64).readout =
      ({ zeroSheet 2 with hostOps := [.issue 3#64, .reset], readouts := [haltedBlock.readout] } : State).readout ∧
    (issuing (zeroSheet 2) 3#64).hostOps = .issue 3#64 :: [] :=
  ⟨rfl, rfl⟩

theorem witness_EncodeIgnoresHighBitsAndTail : 256 % 256 = 0 ∧ 4 * 256 ≤ (List.replicate 1024 0#8).length ∧
    4 * 256 ≤ (List.replicate 1100 0xFC#8).length ∧
    ∀ (i : Nat) (e e' : Byte), i < 4 * 256 → (List.replicate 1024 0#8)[i]? = some e →
      (List.replicate 1100 0xFC#8)[i]? = some e' → e &&& 3#8 = e' &&& 3#8 := by
  refine ⟨rfl, by rw [List.length_replicate], by rw [List.length_replicate]; decide, ?_⟩
  intro i e e' _ h h'
  rw [List.getElem?_replicate] at h h'
  split at h <;> split at h' <;> cases h <;> cases h' <;> decide

theorem witness_RawRoundTrip : (zeroRaw 256).fault = 0x00#8 ∧ (zeroRaw 256).raw.length = 256 ∧ 256 % 256 = 0 ∧
    256 < 2 ^ 32 := by decide +kernel

theorem witness_SheetRoundTrip : (zeroSheet 1024).fault = 0x00#8 ∧ (zeroSheet 1024).sheet.length = 4 * 256 ∧
    256 % 256 = 0 ∧ (∀ e ∈ (zeroSheet 1024).sheet, e.toNat < 4) ∧ 256 < 2 ^ 32 :=
  ⟨rfl, List.length_replicate, rfl, fun e h => by rw [List.eq_of_mem_replicate h]; decide, by decide⟩

theorem witness_MaskedSheetRoundTrip : (zeroSheet 1100).fault = 0x00#8 ∧ 256 % 256 = 0 ∧
    4 * 256 ≤ (zeroSheet 1100).sheet.length ∧ 256 < 2 ^ 32 := by decide +kernel

theorem witness_TranscodingIsDeterministic : (zeroRaw 256).raw.length % 256 = 0 ∧ 256 % 256 = 0 ∧
    4 * 256 ≤ (zeroSheet 1024).sheet.length := by decide +kernel

end Sys2Proof.Tests
end

section
/-! SUPPORT. A word that decodes to a command is the word the encoder gives that command, and what the two loops answer on
regions of a valid size. -/

namespace Sys2Proof

/-- No bit of a decoded word is lost: reserved bits are zero and every other bit is an operand's (R57 to R62). -/
theorem encode_eq_of_decodeWord {w : CmdWord} {i : Instr} (h : decodeWord w = .command i) : encode i = w := by
  unfold decodeWord at h
  split at h
  case isTrue hop =>
    split at h <;> cases h
    case isTrue hres => rw [word_eq_fields_none w, hres, hop]; rfl
  case isFalse =>
    split at h
    case isTrue hop =>
      split at h <;> cases h
      case isTrue hres =>
        conv_rhs => rw [word_eq_fields_size w, hres, hop]
        simp [encode]
    case isFalse =>
      split at h
      case isTrue hop =>
        split at h <;> cases h
        case isTrue hres =>
          conv_rhs => rw [word_eq_fields_pix w, hres, hop]
          simp [encode]
      case isFalse => cases h

end Sys2Proof

namespace Sys2Proof.Machine

theorem combine_lt_four (lo hi : Byte) (b : Nat) : (combine lo hi b).toNat < 4 := by
  have := bitOf_lt_two lo b
  have := bitOf_lt_two hi b
  rw [combine_toNat]; omega

theorem lt_four_of_mem_emitGroup {raw px : List Byte} {g : Group} (h : emitGroup raw g = some px) :
    ∀ e ∈ px, e.toNat < 4 := by
  unfold emitGroup at h
  split at h <;> cases h
  simp [combine8, combine_lt_four]

theorem lt_four_of_mem_deinterleaveOver {raw : List Byte} {order : List Group} : ∀ {out : List Byte},
    deinterleaveOver raw order = some out → ∀ e ∈ out, e.toNat < 4 := by
  induction order with
  | nil => intro out h; cases h; simp
  | cons g rest ih =>
    intro out h e he
    rw [deinterleaveOver] at h
    split at h
    next => cases h
    next px hpx =>
      split at h <;> cases h
      next more hmore =>
        rcases List.mem_append.1 he with he | he
        · exact lt_four_of_mem_emitGroup hpx e he
        · exact ih hmore e he

/-- The de-interleaver answers on every region of a valid size that RAW holds, four elements for each byte (R44, R69). -/
theorem exists_deinterleave {raw : List Byte} {n : Nat} (hsize : n % 256 = 0) (hle : n ≤ raw.length) :
    ∃ e, deinterleave raw n = some e ∧ e.length = 4 * n := by
  have hex : ∀ g ∈ decodeOrder n, highPlaneAddr g.k g.r g.c < raw.length := fun g hg =>
    have ⟨hk, hr, hc⟩ := mem_decodeOrder.1 hg
    Nat.lt_of_lt_of_le (highPlaneAddr_lt hk hr hc) hle
  obtain ⟨e, he, hlen, -⟩ := deinterleaveOver_spec hex
  refine ⟨e, he, ?_⟩
  rw [hlen, decodeOrder_eq, List.length_map, List.length_range]
  omega

/-- The interleaver answers on every valid size the sheet has elements for, with a region of that size (R75). -/
theorem exists_interleave {sheet : List Byte} {size : Nat} (hle : 4 * size ≤ sheet.length) :
    ∃ b, interleave sheet size = some b ∧ b.length = size := by
  have hex : ∀ g ∈ encodeOrder size, g.r < 8 ∧ g.c < 16 ∧ 8 * groupOffset g.k g.r g.c + 8 ≤ sheet.length ∧
      highPlaneAddr g.k g.r g.c < (List.replicate size 0#8).length := fun g hg => by
    obtain ⟨hk, hr, hc⟩ := mem_encodeOrder.1 hg
    rw [List.length_replicate]
    exact ⟨hr, hc, (groupOffset_span_le hk hr hc).trans hle, highPlaneAddr_lt hk hr hc⟩
  obtain ⟨b, hb, hlen, -⟩ := interleaveInto_spec hex
  exact ⟨b, hb, by rw [hlen, List.length_replicate]⟩

theorem deinterleave_length {raw e : List Byte} {n : Nat} (h : deinterleave raw n = some e) (hsize : n % 256 = 0)
    (hle : n ≤ raw.length) : e.length = 4 * n := by
  obtain ⟨e', he', hlen⟩ := exists_deinterleave hsize hle
  rwa [Option.some.inj (h.symm.trans he')]

theorem interleave_length {sheet b : List Byte} {size : Nat} (h : interleave sheet size = some b)
    (hle : 4 * size ≤ sheet.length) : b.length = size := by
  obtain ⟨b', hb', hlen⟩ := exists_interleave hle
  rwa [Option.some.inj (h.symm.trans hb')]

end Sys2Proof.Machine
end

section
/-! SUPPORT. What a command, a host operation and a step can do, guards included, as relations between the states before and
after. `exec` and `perform` answer exactly these states: `exec_eq_next_iff` and `perform_eq_next_iff`. -/

namespace Sys2Proof.Machine

open Sys2Proof.Config

/-- The fault a command takes in `s`, if any. -/
def commandFault (i : Instr) (s : State) : Option FaultCode :=
  match i with
  | .decode => decodeStatus s.raw.length
  | .encode size => encodeStatus size s.sheet.length
  | .wrpix x y _ => wrpixStatus x y s.sheet.length

/-- The fault an issued word takes in `s`, if any: ILLEGAL_COMMAND before every other (R87). -/
def wordFault (w : CmdWord) (s : State) : Option FaultCode :=
  match decodeWord w with
  | .command i => commandFault i s
  | .illegal _ => some .illegalCommand

/-- The command completes from the first state in the second. -/
inductive Completes : Instr → State → State → Prop where
  | decode {s : State} {e : List Byte} (hsize : s.raw.length % 256 = 0)
      (hunit : deinterleave s.raw s.raw.length = some e) : Completes .decode s (s.replaceSheet e).complete
  | encode {s : State} {size : Nat} {b : List Byte} (hsize : size % 256 = 0) (hfit : 4 * size ≤ s.sheet.length)
      (hunit : interleave s.sheet size = some b) : Completes (.encode size) s (s.replaceRaw b).complete
  | wrpix {s : State} {x y : Nat} {v : Byte} (hx : x < 128) (hin : y * 128 + x < s.sheet.length) :
      Completes (.wrpix x y v) s (s.replaceSheet (s.sheet.set (pixelIndex x y) v)).complete

/-- The host operation takes the first state to the second. -/
inductive Performs : HostOp → State → State → Prop where
  | loadRaw {s : State} {b : List Byte} (hfit : b.length ≤ maxRawBytes) : Performs (.loadRaw b) s (s.replaceRaw b)
  | loadSheet {s : State} {e : List Byte} (hfit : e.length ≤ 4 * maxRawBytes) :
      Performs (.loadSheet e) s (s.replaceSheet e)
  | read {s : State} : Performs .read s { s with readouts := s.readouts ++ [s.readout] }
  | reset {s : State} : Performs .reset s s.resetBlock
  | ignored {s : State} {w : CmdWord} (hhalt : s.fault ≠ 0x00#8) : Performs (.issue w) s s
  | faulted {s : State} {w : CmdWord} {f : FaultCode} (hrun : s.fault = 0x00#8) (hfault : wordFault w s = some f) :
      Performs (.issue w) s (s.raiseFault f w)
  | completed {s t : State} {w : CmdWord} {i : Instr} (hrun : s.fault = 0x00#8) (hdec : decodeWord w = .command i)
      (hdone : Completes i s t) : Performs (.issue w) s t

/-! ### The relations are what the model computes -/

theorem wordFault_of_command {w : CmdWord} {i : Instr} (h : decodeWord w = .command i) (s : State) :
    wordFault w s = commandFault i s := by rw [wordFault, h]

theorem wordFault_of_illegal {w : CmdWord} {why : IllegalReason} (h : decodeWord w = .illegal why) (s : State) :
    wordFault w s = some .illegalCommand := by rw [wordFault, h]

theorem exec_of_commandFault {i : Instr} {s : State} {f : FaultCode} (h : commandFault i s = some f) :
    exec i s = .next (s.raiseFault f (encode i)) := by
  cases i with
  | decode => rw [commandFault] at h; simp [exec, execDecode, h]
  | encode size => rw [commandFault] at h; simp [exec, execEncode, h]
  | wrpix x y v => rw [commandFault] at h; simp [exec, execWrpix, h]

theorem Completes.exec_eq {i : Instr} {s t : State} (h : Completes i s t) : exec i s = .next t := by
  cases h with
  | decode hsize hunit => simp [exec, execDecode, decodeStatus_eq_none.2 hsize, hunit]
  | encode hsize hfit hunit => simp [exec, execEncode, encodeStatus_eq_none.2 ⟨hsize, hfit⟩, hunit]
  | wrpix hx hin => simp [exec, execWrpix, wrpixStatus_eq_none.2 ⟨hx, hin⟩, pixelIndex_eq, writeBuf_of_lt hin]

/-- A command without a fault completes: no unit stops inside a buffer of the size its check has found (R37). -/
theorem exists_completes {i : Instr} {s : State} (h : commandFault i s = none) : ∃ t, Completes i s t := by
  cases i with
  | decode =>
    have hsize := decodeStatus_eq_none.1 h
    obtain ⟨e, he, -⟩ := exists_deinterleave hsize le_rfl
    exact ⟨_, .decode hsize he⟩
  | encode size =>
    obtain ⟨hsize, hfit⟩ := encodeStatus_eq_none.1 h
    obtain ⟨b, hb, -⟩ := exists_interleave hfit
    exact ⟨_, .encode hsize hfit hb⟩
  | wrpix x y v =>
    obtain ⟨hx, hin⟩ := wrpixStatus_eq_none.1 h
    exact ⟨_, .wrpix hx hin⟩

theorem exec_eq_next_iff {i : Instr} {s t : State} : exec i s = .next t ↔
    (∃ f, commandFault i s = some f ∧ t = s.raiseFault f (encode i)) ∨ Completes i s t := by
  constructor
  · intro h
    rcases hf : commandFault i s with _ | f
    · obtain ⟨u, hu⟩ := exists_completes hf
      obtain rfl : u = t := by simpa [hu.exec_eq] using h
      exact .inr hu
    · exact .inl ⟨f, rfl, by simpa [exec_of_commandFault hf, eq_comm] using h⟩
  · rintro (⟨f, hf, rfl⟩ | hdone)
    · exact exec_of_commandFault hf
    · exact hdone.exec_eq

theorem issueDecoded_of_command {w : CmdWord} {i : Instr} (h : decodeWord w = .command i) (s : State) :
    issueDecoded w s = exec i s := by rw [issueDecoded, h]

theorem issueDecoded_of_illegal {w : CmdWord} {why : IllegalReason} (h : decodeWord w = .illegal why) (s : State) :
    issueDecoded w s = .next (s.raiseFault .illegalCommand w) := by rw [issueDecoded, h]

/-- A fault records the word that was issued (R88). -/
theorem issueDecoded_of_wordFault {w : CmdWord} {s : State} {f : FaultCode} (h : wordFault w s = some f) :
    issueDecoded w s = .next (s.raiseFault f w) := by
  rcases hd : decodeWord w with i | why
  · rw [issueDecoded_of_command hd, exec_of_commandFault (wordFault_of_command hd s ▸ h), encode_eq_of_decodeWord hd]
  · rw [issueDecoded_of_illegal hd, ← Option.some.inj ((wordFault_of_illegal hd s).symm.trans h)]

theorem Performs.perform_eq {op : HostOp} {s t : State} (h : Performs op s t) : perform op s = .next t := by
  cases h with
  | loadRaw hfit => exact if_pos hfit
  | loadSheet hfit => exact if_pos hfit
  | read => rfl
  | reset => rfl
  | ignored hhalt => exact hostIssue_halted hhalt
  | faulted hrun hfault => exact (hostIssue_running hrun).trans (issueDecoded_of_wordFault hfault)
  | completed hrun hdec hdone =>
    exact (hostIssue_running hrun).trans ((issueDecoded_of_command hdec _).trans hdone.exec_eq)

/-- A command word always has a next state (R89: a running block accepts every word, a halted one ignores it). -/
theorem exists_performs_issue (w : CmdWord) (s : State) : ∃ t, Performs (.issue w) s t := by
  by_cases hrun : s.fault = 0x00#8
  · rcases hf : wordFault w s with _ | f
    · rcases hd : decodeWord w with i | why
      · obtain ⟨t, ht⟩ := exists_completes ((wordFault_of_command hd s).symm.trans hf)
        exact ⟨t, .completed hrun hd ht⟩
      · exact absurd ((wordFault_of_illegal hd s).symm.trans hf) (by simp)
    · exact ⟨_, .faulted hrun hf⟩
  · exact ⟨s, .ignored hrun⟩

/-- Every operation has a next state but a load beyond the capacity, which is refused (R27, R28). -/
theorem exists_performs_or_refused (op : HostOp) (s : State) : (∃ t, Performs op s t) ∨
    (perform op s = .refused .loadTooLong ∧
      ((∃ b, op = .loadRaw b ∧ maxRawBytes < b.length) ∨ ∃ e, op = .loadSheet e ∧ 4 * maxRawBytes < e.length)) := by
  cases op with
  | loadRaw b =>
    by_cases hfit : b.length ≤ maxRawBytes
    · exact .inl ⟨_, .loadRaw hfit⟩
    · exact .inr ⟨if_neg hfit, .inl ⟨b, rfl, Nat.lt_of_not_le hfit⟩⟩
  | loadSheet e =>
    by_cases hfit : e.length ≤ 4 * maxRawBytes
    · exact .inl ⟨_, .loadSheet hfit⟩
    · exact .inr ⟨if_neg hfit, .inr ⟨e, rfl, Nat.lt_of_not_le hfit⟩⟩
  | read => exact .inl ⟨_, .read⟩
  | issue w => exact .inl (exists_performs_issue w s)
  | reset => exact .inl ⟨_, .reset⟩

theorem perform_eq_next_iff {op : HostOp} {s t : State} : perform op s = .next t ↔ Performs op s t := by
  refine ⟨fun h => ?_, Performs.perform_eq⟩
  rcases exists_performs_or_refused op s with ⟨u, hu⟩ | ⟨hno, -⟩
  · obtain rfl : u = t := by simpa [hu.perform_eq] using h
    exact hu
  · simp [hno] at h

/-- A step idles or performs the host's next operation. -/
theorem step_cases {s t : State} (h : step s = .next t) :
    (s.hostOps = [] ∧ t = s) ∨ ∃ op rest, s.hostOps = op :: rest ∧ Performs op (s.withHostOps rest) t := by
  rcases hops : s.hostOps with _ | ⟨op, rest⟩
  · exact .inl ⟨rfl, by simpa [step_idle hops, eq_comm] using h⟩
  · exact .inr ⟨op, rest, rfl, perform_eq_next_iff.1 ((step_op hops).symm.trans h)⟩

/-- Only an operation changes the block. -/
theorem step_cases_of_ne {s t : State} (h : step s = .next t) (hne : t ≠ s) :
    ∃ op rest, s.hostOps = op :: rest ∧ Performs op (s.withHostOps rest) t :=
  (step_cases h).resolve_left fun ⟨_, heq⟩ => hne heq

/-! ### What each can change -/

/-- A command that completes counts itself and leaves the fault registers alone (R20, R88). -/
theorem Completes.registers {i : Instr} {s t : State} (h : Completes i s t) :
    t.fault = s.fault ∧ t.faultCmd = s.faultCmd ∧ t.ci = s.ci + 1 := by
  cases h <;> exact ⟨rfl, rfl, rfl⟩

/-- An operation neither reads nor writes the operations after it. -/
theorem Performs.withHostOps {op : HostOp} {s t : State} (h : Performs op s t) (ops : List HostOp) :
    Performs op (s.withHostOps ops) (t.withHostOps ops) := by
  cases h with
  | loadRaw hfit => exact .loadRaw hfit
  | loadSheet hfit => exact .loadSheet hfit
  | read => exact .read
  | reset => exact .reset
  | ignored hhalt => exact .ignored hhalt
  | faulted hrun hfault => exact .faulted (s := s.withHostOps ops) hrun hfault
  | completed hrun hdec hdone =>
    refine .completed (s := s.withHostOps ops) hrun hdec ?_
    cases hdone with
    | decode hsize hunit => exact .decode (s := s.withHostOps ops) hsize hunit
    | encode hsize hfit hunit => exact .encode (s := s.withHostOps ops) hsize hfit hunit
    | wrpix hx hin => exact .wrpix (s := s.withHostOps ops) hx hin

end Sys2Proof.Machine
end

section
/-! PROOFS. The state invariant: each operation on the state keeps it, so every step does. -/

namespace Sys2Proof.Machine

open Sys2Proof.Config

theorem State.Inv.withHostOps {s : State} (h : s.Inv) (ops : List HostOp) : (s.withHostOps ops).Inv :=
  ⟨h.capacity, h.faultLegal, h.faultCmdQuiet⟩

theorem State.Inv.replaceRaw {s : State} (h : s.Inv) {b : List Byte} (hb : b.length ≤ maxRawBytes) :
    (s.replaceRaw b).Inv :=
  ⟨⟨hb, h.capacity.2⟩, h.faultLegal, h.faultCmdQuiet⟩

theorem State.Inv.replaceSheet {s : State} (h : s.Inv) {e : List Byte} (he : e.length ≤ 4 * maxRawBytes) :
    (s.replaceSheet e).Inv :=
  ⟨⟨h.capacity.1, he⟩, h.faultLegal, h.faultCmdQuiet⟩

theorem State.Inv.complete {s : State} (h : s.Inv) : s.complete.Inv :=
  ⟨h.capacity, h.faultLegal, h.faultCmdQuiet⟩

theorem State.Inv.raiseFault {s : State} (h : s.Inv) (f : FaultCode) (w : CmdWord) : (s.raiseFault f w).Inv :=
  ⟨h.capacity, f.code_le_four, fun hzero => absurd hzero f.code_ne_zero⟩

theorem State.resetBlock_inv (s : State) : s.resetBlock.Inv :=
  ⟨⟨Nat.zero_le _, Nat.zero_le _⟩, Nat.zero_le _, fun _ => rfl⟩

/-- ENCODE's region fits because its sheet does, and DECODE's sheet because its region does (R12, R77). -/
theorem Completes.inv {i : Instr} {s t : State} (h : Completes i s t) (hs : s.Inv) : t.Inv := by
  obtain ⟨hraw, hsheet⟩ := hs.capacity
  cases h with
  | decode hsize hunit =>
    refine (hs.replaceSheet ?_).complete
    rw [deinterleave_length hunit hsize le_rfl]; omega
  | encode hsize hfit hunit =>
    refine (hs.replaceRaw ?_).complete
    rw [interleave_length hunit hfit]; omega
  | wrpix hx hin => exact (hs.replaceSheet (by rwa [List.length_set])).complete

theorem Performs.inv {op : HostOp} {s t : State} (h : Performs op s t) (hs : s.Inv) : t.Inv := by
  cases h with
  | loadRaw hfit => exact hs.replaceRaw hfit
  | loadSheet hfit => exact hs.replaceSheet hfit
  | read => exact ⟨hs.capacity, hs.faultLegal, hs.faultCmdQuiet⟩
  | reset => exact s.resetBlock_inv
  | ignored hhalt => exact hs
  | faulted hrun hfault => exact hs.raiseFault _ _
  | completed hrun hdec hdone => exact hdone.inv hs

/-- Settles O42: an idle step changes nothing, and every host operation keeps the invariant. -/
theorem stepKeepsStateInvariant : Obligations.StepKeepsStateInvariant := by
  intro s t hs h
  rcases step_cases h with ⟨-, rfl⟩ | ⟨op, rest, -, hop⟩
  · exact hs
  · exact hop.inv (hs.withHostOps rest)

/-- Settles O43: the reset state is what reset makes of itself. -/
theorem resetMeetsStateInvariant : Obligations.ResetMeetsStateInvariant := State.reset.resetBlock_inv

end Sys2Proof.Machine
end

section
/-! PROOFS. When a step stops, and which operations change RAW, SHEET and the fault registers. -/

namespace Sys2Proof.Machine

open Sys2Proof.Config

/-- Settles O44: the host's next operation is performed, or is a load that does not fit. -/
theorem stepStopsOnlyOnLongLoad : Obligations.StepStopsOnlyOnLongLoad := by
  intro s
  rcases hops : s.hostOps with _ | ⟨op, rest⟩
  · exact .inl ⟨s, step_idle hops⟩
  · rw [step_op hops]
    rcases exists_performs_or_refused op (s.withHostOps rest) with ⟨t, ht⟩ | ⟨hno, ⟨b, rfl, hb⟩ | ⟨e, rfl, he⟩⟩
    · exact .inl ⟨t, ht.perform_eq⟩
    · exact .inr ⟨hno, .inl ⟨b, rest, rfl, hb⟩⟩
    · exact .inr ⟨hno, .inr ⟨e, rest, rfl, he⟩⟩

theorem Performs.raw_change {op : HostOp} {s t : State} (h : Performs op s t) (hne : t.raw ≠ s.raw) :
    op = .reset ∨ op = .loadRaw t.raw ∨ ∃ w size, op = .issue w ∧ s.fault = 0x00#8 ∧
      decodeWord w = .command (.encode size) ∧ t.ci = s.ci + 1 ∧ t.raw.length = size := by
  cases h with
  | loadRaw hfit => exact .inr (.inl rfl)
  | reset => exact .inl rfl
  | loadSheet | read | ignored | faulted => exact absurd rfl hne
  | completed hrun hdec hdone =>
    cases hdone with
    | encode hsize hfit hunit => exact .inr (.inr ⟨_, _, rfl, hrun, hdec, rfl, interleave_length hunit hfit⟩)
    | decode | wrpix => exact absurd rfl hne

/-- Settles O45: of the operations that change RAW, only a completed ENCODE is a command. -/
theorem rawChangesOnlyByReplacement : Obligations.RawChangesOnlyByReplacement := by
  intro s t h hne
  obtain ⟨op, rest, hops, hop⟩ := step_cases_of_ne h (ne_of_apply_ne State.raw hne)
  exact ⟨op, rest, hops, hop.raw_change hne⟩

theorem Performs.sheet_change {op : HostOp} {s t : State} (h : Performs op s t) (hne : t.sheet ≠ s.sheet) :
    op = .reset ∨ op = .loadSheet t.sheet ∨
      (∃ w, op = .issue w ∧ s.fault = 0x00#8 ∧ decodeWord w = .command .decode ∧
        t.sheet.length = 4 * s.raw.length ∧ ∀ e ∈ t.sheet, e.toNat < 4) ∨
      (∃ w x y v, op = .issue w ∧ s.fault = 0x00#8 ∧ decodeWord w = .command (.wrpix x y v) ∧
        t.sheet = s.sheet.set (y * 128 + x) v) := by
  cases h with
  | loadSheet hfit => exact .inr (.inl rfl)
  | reset => exact .inl rfl
  | loadRaw | read | ignored | faulted => exact absurd rfl hne
  | completed hrun hdec hdone =>
    cases hdone with
    | decode hsize hunit =>
      exact .inr (.inr (.inl ⟨_, rfl, hrun, hdec, deinterleave_length hunit hsize le_rfl,
        lt_four_of_mem_deinterleaveOver hunit⟩))
    | encode => exact absurd rfl hne
    | wrpix hx hin => exact .inr (.inr (.inr ⟨_, _, _, _, rfl, hrun, hdec, rfl⟩))

/-- Settles O46: of the operations that change SHEET, only DECODE and WRPIX are commands. -/
theorem sheetChangesOnlyByDecodeOrPixel : Obligations.SheetChangesOnlyByDecodeOrPixel := by
  intro s t h hne
  obtain ⟨op, rest, hops, hop⟩ := step_cases_of_ne h (ne_of_apply_ne State.sheet hne)
  exact ⟨op, rest, hops, hop.sheet_change hne⟩

theorem FaultCode.code_pos (f : FaultCode) : 1 ≤ f.code.toNat := by cases f <;> decide

theorem Performs.fault_change {op : HostOp} {s t : State} (h : Performs op s t)
    (hne : t.fault ≠ s.fault ∨ t.faultCmd ≠ s.faultCmd) :
    op = .reset ∨ ∃ w, op = .issue w ∧ s.fault = 0x00#8 ∧ t.faultCmd = w ∧ 1 ≤ t.fault.toNat ∧ t.fault.toNat ≤ 4 := by
  cases h with
  | reset => exact .inl rfl
  | faulted hrun hfault => exact .inr ⟨_, rfl, hrun, rfl, FaultCode.code_pos _, FaultCode.code_le_four _⟩
  | loadRaw | loadSheet | read | ignored => exact absurd hne (by simp)
  | completed hrun hdec hdone =>
    obtain ⟨hfault, hcmd, -⟩ := hdone.registers
    exact absurd hne (by simp [hfault, hcmd])

/-- Settles O47: a completed command leaves both registers alone, so only a word that faults is left beside reset. -/
theorem faultRegistersWrittenOnlyByFaultOrReset : Obligations.FaultRegistersWrittenOnlyByFaultOrReset := by
  intro s t h hne
  obtain ⟨op, rest, hops, hop⟩ := step_cases_of_ne h (by rintro rfl; simp at hne)
  exact ⟨op, rest, hops, hop.fault_change hne⟩

end Sys2Proof.Machine
end

section
/-! PROOFS. Runs of operations without reset: what CI counts, and what a normal end says of the parts of a run. -/

namespace Sys2Proof.Machine

theorem performAll_cons_eq_next_iff {op : HostOp} {ops : List HostOp} {s t : State} :
    performAll (op :: ops) s = .next t ↔ ∃ u, Performs op (s.withHostOps ops) u ∧ performAll ops u = .next t := by
  simp only [performAll_cons, ← perform_eq_next_iff]
  cases perform op (s.withHostOps ops) <;> simp

/-- A run splits into its first part and the rest, which begins where the first part ended. -/
theorem performAll_append_eq_next {before after : List HostOp} {s t : State}
    (h : performAll (before ++ after) s = .next t) :
    ∃ u, performAll before s = .next u ∧ performAll after u = .next t := by
  induction before generalizing s with
  | nil => exact ⟨s.withHostOps [], rfl, h⟩
  | cons op ops ih =>
    obtain ⟨v, hop, hrest⟩ := performAll_cons_eq_next_iff.1 h
    obtain ⟨u, hu, ht⟩ := ih hrest
    exact ⟨u, performAll_cons_eq_next_iff.2 ⟨v.withHostOps ops, hop.withHostOps ops, hu⟩, ht⟩

theorem performAll_hostOps {ops : List HostOp} {s t : State} (h : performAll ops s = .next t) : t.hostOps = [] := by
  induction ops generalizing s with
  | nil => cases h; rfl
  | cons op ops ih =>
    obtain ⟨u, -, hrest⟩ := performAll_cons_eq_next_iff.1 h
    exact ih hrest

/-- A halted block keeps its fault registers and CI under every operation but reset (R89, R90). -/
theorem Performs.registers_of_halted {op : HostOp} {s t : State} (h : Performs op s t) (hhalt : s.fault ≠ 0x00#8)
    (hop : op ≠ .reset) : t.fault = s.fault ∧ t.faultCmd = s.faultCmd ∧ t.ci = s.ci := by
  cases h with
  | reset => exact absurd rfl hop
  | faulted hrun | completed hrun => exact absurd hrun hhalt
  | loadRaw | loadSheet | read | ignored => exact ⟨rfl, rfl, rfl⟩

theorem performAll_registers_of_halted {ops : List HostOp} {s t : State} (hhalt : s.fault ≠ 0x00#8)
    (hreset : HostOp.reset ∉ ops) (h : performAll ops s = .next t) :
    t.fault = s.fault ∧ t.faultCmd = s.faultCmd ∧ t.ci = s.ci := by
  induction ops generalizing s with
  | nil => cases h; exact ⟨rfl, rfl, rfl⟩
  | cons op ops ih =>
    obtain ⟨hop, hops⟩ := not_or.1 (mt List.mem_cons.2 hreset)
    obtain ⟨u, hfirst, hrest⟩ := performAll_cons_eq_next_iff.1 h
    obtain ⟨hfault, hcmd, hci⟩ := hfirst.registers_of_halted hhalt (Ne.symm hop)
    obtain ⟨hfault', hcmd', hci'⟩ := ih (hfault.trans_ne hhalt) hops hrest
    exact ⟨hfault'.trans hfault, hcmd'.trans hcmd, hci'.trans hci⟩

/-- From a running block an operation but reset leaves it running, with CI counting an issued word, or is a word that faults,
recorded and not counted (R20, R88). -/
theorem Performs.ci_of_running {op : HostOp} {s t : State} (h : Performs op s t) (hrun : s.fault = 0x00#8)
    (hop : op ≠ .reset) : (t.fault = 0x00#8 ∧ t.ci = s.ci + [op].countP HostOp.isIssue) ∨
      (t.fault ≠ 0x00#8 ∧ ∃ w, op = .issue w ∧ t.ci = s.ci ∧ t.faultCmd = w) := by
  cases h with
  | reset => exact absurd rfl hop
  | ignored hhalt => exact absurd hrun hhalt
  | loadRaw | loadSheet | read => exact .inl ⟨hrun, rfl⟩
  | faulted hrun hfault => exact .inr ⟨FaultCode.code_ne_zero _, _, rfl, rfl, rfl⟩
  | completed hrun hdec hdone =>
    obtain ⟨hfault, -, hci⟩ := hdone.registers
    exact .inl ⟨hfault.trans hrun, hci⟩

/-- CI along a run without reset from a running block (R20). -/
theorem performAll_ci {ops : List HostOp} {s t : State} (hrun : s.fault = 0x00#8) (hreset : HostOp.reset ∉ ops)
    (h : performAll ops s = .next t) :
    (t.fault = 0x00#8 → t.ci = s.ci + ops.countP HostOp.isIssue) ∧
    (t.fault ≠ 0x00#8 → ∃ before w after, ops = before ++ .issue w :: after ∧
      t.ci = s.ci + before.countP HostOp.isIssue ∧ t.faultCmd = w) := by
  induction ops generalizing s with
  | nil => cases h; exact ⟨fun _ => rfl, fun hne => absurd hrun hne⟩
  | cons op ops ih =>
    obtain ⟨hop, hops⟩ := not_or.1 (mt List.mem_cons.2 hreset)
    obtain ⟨u, hfirst, hrest⟩ := performAll_cons_eq_next_iff.1 h
    rcases hfirst.ci_of_running hrun (Ne.symm hop) with ⟨hu, hci⟩ | ⟨hu, w, rfl, hci, hcmd⟩
    · -- the first operation completes: it is counted before the rest of the run
      have hcount : ∀ l, u.ci + l.countP HostOp.isIssue = s.ci + (op :: l).countP HostOp.isIssue := fun l => by
        rw [hci, State.withHostOps_ci, Nat.add_assoc, ← List.countP_append, List.singleton_append]
      obtain ⟨hend, hfaulted⟩ := ih hu hops hrest
      refine ⟨fun ht => (hend ht).trans (hcount ops), fun ht => ?_⟩
      obtain ⟨before, w, after, rfl, hci', hcmd⟩ := hfaulted ht
      exact ⟨op :: before, w, after, rfl, hci'.trans (hcount before), hcmd⟩
    · -- the first operation is the word that faults: the rest of the run finds the block halted
      obtain ⟨hfault', hcmd', hci'⟩ := performAll_registers_of_halted hu hops hrest
      exact ⟨fun ht => absurd (hfault'.symm.trans ht) hu, fun _ => ⟨[], w, ops, rfl, hci'.trans hci, hcmd'.trans hcmd⟩⟩

/-- Settles O40, by induction over the operations of the run. -/
theorem commandIndexCountsCompletions : Obligations.CommandIndexCountsCompletions := by
  refine ⟨rfl, fun s rest hops => ?_, fun ops s t hrun hreset h => performAll_ci hrun hreset h⟩
  exact ⟨_, (step_op hops).trans Performs.reset.perform_eq, rfl⟩

/-- Settles O41: a part of the run that had faulted would leave the whole run halted. -/
theorem normalEndMeansNoFaultOnTheWay : Obligations.NormalEndMeansNoFaultOnTheWay := by
  rintro ops t hreset h ⟨-, hend⟩
  refine ⟨by simpa [State.reset] using (performAll_ci rfl hreset h).1 hend, ?_⟩
  rintro before after rfl
  obtain ⟨hbefore, hafter⟩ := not_or.1 (mt List.mem_append.2 hreset)
  obtain ⟨u, hu, hrest⟩ := performAll_append_eq_next h
  have hrun : u.fault = 0x00#8 := by
    by_contra hhalt
    exact hhalt ((performAll_registers_of_halted hhalt hafter hrest).1.symm.trans hend)
  exact ⟨u, hu, ⟨performAll_hostOps hu, hrun⟩, by simpa [State.reset] using (performAll_ci rfl hbefore hu).1 hrun⟩

end Sys2Proof.Machine
end

section
/-! PROOFS. The host port one operation at a time, the values after reset and the raster. -/

namespace Sys2Proof.Machine

open Sys2Proof.Config

theorem step_loadRaw {s : State} {b : List Byte} {rest : List HostOp} (hops : s.hostOps = .loadRaw b :: rest)
    (hfit : b.length ≤ maxRawBytes) : step s = .next { s with raw := b, hostOps := rest } :=
  (step_op hops).trans (Performs.loadRaw hfit).perform_eq

theorem step_loadSheet {s : State} {e : List Byte} {rest : List HostOp} (hops : s.hostOps = .loadSheet e :: rest)
    (hfit : e.length ≤ 4 * maxRawBytes) : step s = .next { s with sheet := e, hostOps := rest } :=
  (step_op hops).trans (Performs.loadSheet hfit).perform_eq

theorem step_read {s : State} {rest : List HostOp} (hops : s.hostOps = .read :: rest) :
    step s = .next { s with hostOps := rest, readouts := s.readouts ++ [s.readout] } :=
  (step_op hops).trans Performs.read.perform_eq

theorem step_issue_halted {s : State} {w : CmdWord} {rest : List HostOp} (hops : s.hostOps = .issue w :: rest)
    (hhalt : s.fault ≠ 0x00#8) : step s = .next { s with hostOps := rest } :=
  (step_op hops).trans (hostIssue_halted hhalt)

/-- Settles O31: one equation of the step per operation; a running block answers every word. -/
theorem haltedBlockRefusesWords : Obligations.HaltedBlockRefusesWords := by
  constructor
  · intro s rest hhalt
    exact ⟨fun hend => hhalt hend.2, fun _ hops => step_issue_halted hops hhalt, fun _ => step_loadRaw,
      fun _ => step_loadSheet, step_read⟩
  · intro s w rest _ hops
    obtain ⟨t, ht⟩ := exists_performs_issue w (s.withHostOps rest)
    exact ⟨t, (step_op hops).trans ht.perform_eq⟩

/-- Settles O35: the load is its check of the capacity and the replacement of RAW. -/
theorem loadRawReplacesRaw : Obligations.LoadRawReplacesRaw := fun _ _ _ hops =>
  ⟨step_loadRaw hops, fun hlong => (step_op hops).trans (if_neg (Nat.not_le_of_lt hlong))⟩

/-- Settles O36: the load is its check of the capacity and the replacement of SHEET. -/
theorem loadSheetReplacesSheet : Obligations.LoadSheetReplacesSheet := fun _ _ _ hops =>
  ⟨step_loadSheet hops, fun hlong => (step_op hops).trans (if_neg (Nat.not_le_of_lt hlong))⟩

/-- Settles O37: a read stands in no field that a second read returns. -/
theorem readReturnsEveryField : Obligations.ReadReturnsEveryField := by
  refine ⟨fun _ _ hops => step_read hops, fun s => ⟨_, s.readout, rfl, ?_⟩⟩
  exact List.append_assoc s.readouts [s.readout] [s.readout]

/-- Settles O38: a running block decodes the word it is issued. -/
theorem stepRunsDecodedCommand : Obligations.StepRunsDecodedCommand := by
  intro s w i rest hrun hops hdec
  have hissue : hostIssue w (s.withHostOps rest) = issueDecoded w (s.withHostOps rest) := hostIssue_running hrun
  exact (step_op hops).trans (hissue.trans (issueDecoded_of_command hdec _))

/-- Settles O33: the fields of the reset state, as it is written out. -/
theorem resetValues : Obligations.ResetValues := ⟨rfl, rfl, rfl, rfl, rfl, rfl, rfl⟩

/-- Settles O13: a column is below the width, so it is the remainder of its element by the width and the row the quotient. -/
theorem sheetRasterIsRowMajor : Obligations.SheetRasterIsRowMajor := by
  refine ⟨fun x y hx => ⟨pixelIndex_eq x y, ?_, ?_⟩, fun i => ?_⟩ <;> rw [pixelIndex_eq] <;> omega

end Sys2Proof.Machine
end

section
/-! PROOFS. The pixel-to-source map of R43 in coordinates: the group a SHEET element and a RAW byte belong to, and the map and
its converse against each other. -/

namespace Sys2Proof.Machine

/-- The group SHEET element `i` stands in (R43). -/
def pixelGroup (i : Nat) : Group := ⟨i / 1024, i / 128 % 8, i / 8 % 16⟩

/-- The group RAW byte `a` is a plane byte of (R43, the converse). -/
def byteGroup (a : Nat) : Group := ⟨a / 256, a % 8, a % 256 / 16⟩

theorem planeOf_eq_zero {a : Nat} : planeOf a = 0 ↔ a % 16 < 8 := by simp [planeOf]

theorem planeOf_eq_one {a : Nat} : planeOf a = 1 ↔ 8 ≤ a % 16 := by simp [planeOf]

theorem pixelGroup_mem_decodeOrder {n i : Nat} (hsize : n % 256 = 0) (hi : i < 4 * n) :
    pixelGroup i ∈ decodeOrder n := by
  simp only [mem_decodeOrder, pixelGroup]; omega

theorem byteGroup_mem_encodeOrder {n a : Nat} (hsize : n % 256 = 0) (ha : a < n) : byteGroup a ∈ encodeOrder n := by
  simp only [mem_encodeOrder, byteGroup]; omega

/-- The groups of the de-interleaver's order follow one another in SHEET, eight elements each (R70). -/
theorem decodeOrder_getElem {n q : Nat} (hq : q < (decodeOrder n).length) {j : Nat} (hj : j < 8) :
    (decodeOrder n)[q] = pixelGroup (8 * q + j) := by
  simp only [decodeOrder_eq, List.getElem_map, List.getElem_range, pixelGroup, Group.mk.injEq]
  omega

/-- The eight elements of a group from its first one up (R75). -/
theorem pixelGroup_groupOffset {g : Group} {j : Nat} (hr : g.r < 8) (hc : g.c < 16) (hj : j < 8) :
    pixelGroup (8 * groupOffset g.k g.r g.c + j) = g := by
  obtain ⟨k, r, c⟩ := g
  simp only [pixelGroup, groupOffset_eq, Group.mk.injEq] at *; omega

theorem lowPlaneAddr_pixelGroup (i : Nat) :
    lowPlaneAddr (pixelGroup i).k (pixelGroup i).r (pixelGroup i).c = pixelLowAddr i := by
  simp only [lowPlaneAddr_eq, pixelGroup, pixelLowAddr]; omega

theorem highPlaneAddr_pixelGroup (i : Nat) :
    highPlaneAddr (pixelGroup i).k (pixelGroup i).r (pixelGroup i).c = pixelHighAddr i :=
  congrArg (· + 8) (lowPlaneAddr_pixelGroup i)

theorem pixelBit_eq {q j : Nat} (hj : j < 8) : pixelBit (8 * q + j) = 7 - j := by rw [pixelBit]; omega

theorem lowPlaneAddr_byteGroup {a : Nat} (h : planeOf a = 0) :
    lowPlaneAddr (byteGroup a).k (byteGroup a).r (byteGroup a).c = a := by
  have := planeOf_eq_zero.1 h
  simp only [lowPlaneAddr_eq, byteGroup]; omega

theorem highPlaneAddr_byteGroup {a : Nat} (h : planeOf a = 1) :
    highPlaneAddr (byteGroup a).k (byteGroup a).r (byteGroup a).c = a := by
  have := planeOf_eq_one.1 h
  simp only [highPlaneAddr_eq, byteGroup]; omega

theorem pixelOfBit_eq_byteGroup (a b : Nat) :
    pixelOfBit a b = 8 * groupOffset (byteGroup a).k (byteGroup a).r (byteGroup a).c + (7 - b) := by
  simp only [groupOffset_eq, byteGroup, pixelOfBit]; omega

theorem planeOf_eq_zero_or_one (a : Nat) : planeOf a = 0 ∨ planeOf a = 1 := by
  rw [planeOf_eq_zero, planeOf_eq_one]; omega

/-! ### The map and its converse -/

theorem pixelHighAddr_lt {n i : Nat} (hsize : n % 256 = 0) (hi : i < 4 * n) : pixelHighAddr i < n := by
  obtain ⟨hk, hr, hc⟩ := mem_decodeOrder.1 (pixelGroup_mem_decodeOrder hsize hi)
  exact highPlaneAddr_pixelGroup i ▸ highPlaneAddr_lt hk hr hc

theorem pixelLowAddr_lt {n i : Nat} (hsize : n % 256 = 0) (hi : i < 4 * n) : pixelLowAddr i < n :=
  Nat.lt_of_le_of_lt (Nat.le_add_right _ 8) (pixelHighAddr_lt hsize hi)

theorem planeOf_pixelLowAddr (i : Nat) : planeOf (pixelLowAddr i) = 0 := by
  rw [planeOf_eq_zero, pixelLowAddr]; omega

theorem planeOf_pixelHighAddr (i : Nat) : planeOf (pixelHighAddr i) = 1 := by
  rw [planeOf_eq_one, pixelHighAddr, pixelLowAddr]; omega

theorem pixelOfBit_pixelLowAddr (i : Nat) : pixelOfBit (pixelLowAddr i) (pixelBit i) = i := by
  simp only [pixelOfBit, pixelLowAddr, pixelBit]; omega

theorem pixelOfBit_pixelHighAddr (i : Nat) : pixelOfBit (pixelHighAddr i) (pixelBit i) = i := by
  simp only [pixelOfBit, pixelHighAddr, pixelLowAddr, pixelBit]; omega

theorem pixelOfBit_lt {n a : Nat} (hsize : n % 256 = 0) (ha : a < n) (b : Nat) : pixelOfBit a b < 4 * n := by
  obtain ⟨hk, hr, hc⟩ := mem_encodeOrder.1 (byteGroup_mem_encodeOrder hsize ha)
  have hspan := groupOffset_span_le hk hr hc
  rw [pixelOfBit_eq_byteGroup]; omega

theorem pixelBit_pixelOfBit (a : Nat) {b : Nat} (hb : b < 8) : pixelBit (pixelOfBit a b) = b := by
  rw [pixelOfBit_eq_byteGroup, pixelBit_eq (by omega)]; omega

theorem pixelGroup_pixelOfBit (a b : Nat) : pixelGroup (pixelOfBit a b) = byteGroup a := by
  have hr : (byteGroup a).r < 8 := Nat.mod_lt a (by decide)
  have hc : (byteGroup a).c < 16 := by simp only [byteGroup]; omega
  rw [pixelOfBit_eq_byteGroup, pixelGroup_groupOffset hr hc (by omega)]

theorem pixelLowAddr_pixelOfBit {a : Nat} (h : planeOf a = 0) (b : Nat) : pixelLowAddr (pixelOfBit a b) = a := by
  rw [← lowPlaneAddr_pixelGroup, pixelGroup_pixelOfBit, lowPlaneAddr_byteGroup h]

theorem pixelHighAddr_pixelOfBit {a : Nat} (h : planeOf a = 1) (b : Nat) : pixelHighAddr (pixelOfBit a b) = a := by
  rw [← highPlaneAddr_pixelGroup, pixelGroup_pixelOfBit, highPlaneAddr_byteGroup h]

/-- Settles O12: an element and its two plane bytes share a group, and within it the bit fixes the element. -/
theorem pixelMapIsBijection : Obligations.PixelMapIsBijection := by
  intro n hsize
  constructor
  · intro i hi
    have hbit : pixelBit i < 8 := by rw [pixelBit]; omega
    exact ⟨pixelLowAddr_lt hsize hi, pixelHighAddr_lt hsize hi, hbit, planeOf_pixelLowAddr i, planeOf_pixelHighAddr i,
      pixelOfBit_pixelLowAddr i, pixelOfBit_pixelHighAddr i⟩
  · intro a ha b hb
    exact ⟨pixelOfBit_lt hsize ha b, pixelBit_pixelOfBit a hb, fun h => pixelLowAddr_pixelOfBit h b,
      fun h => pixelHighAddr_pixelOfBit h b⟩

end Sys2Proof.Machine
end

section
/-! PROOFS. The two loops against R43, element by element and bit by bit, and with them what DECODE and ENCODE complete with. -/

namespace Sys2Proof.Machine

/-! ### The de-interleaver -/

theorem sourcePixel_eq_combine {raw : List Byte} {i : Nat} {lo hi : Byte} (hlo : raw[pixelLowAddr i]? = some lo)
    (hhi : raw[pixelHighAddr i]? = some hi) : sourcePixel raw i = some (combine lo hi (pixelBit i)) := by
  simp [sourcePixel, hlo, hhi, combine, bitOf, Nat.and_one_is_mod]

/-- Element `i` of the de-interleaver's list combines the bit R43 names of the two plane bytes R43 names. -/
theorem deinterleave_getElem? {raw e : List Byte} {n i : Nat} (h : deinterleave raw n = some e) (hsize : n % 256 = 0)
    (hle : n ≤ raw.length) (hin : i < 4 * n) : ∃ lo hi, raw[pixelLowAddr i]? = some lo ∧
      raw[pixelHighAddr i]? = some hi ∧ e[i]? = some (combine lo hi (pixelBit i)) := by
  have hex : ∀ g ∈ decodeOrder n, highPlaneAddr g.k g.r g.c < raw.length := fun g hg =>
    have ⟨hk, hr, hc⟩ := mem_decodeOrder.1 hg
    (highPlaneAddr_lt hk hr hc).trans_le hle
  obtain ⟨out, hout, hlen, hget⟩ := deinterleaveOver_spec hex
  obtain rfl : out = e := Option.some.inj (hout.symm.trans h)
  have hq : i / 8 < (decodeOrder n).length := by
    have := deinterleave_length h hsize hle
    omega
  have hj : i % 8 < 8 := Nat.mod_lt i (by decide)
  have hij : 8 * (i / 8) + i % 8 = i := Nat.div_add_mod i 8
  obtain ⟨px, hpx, heq⟩ := hget (i / 8) hq (i % 8) hj
  obtain ⟨lo, hi, hlo, hhi, hemit⟩ := emitGroup_of_lt (hex _ (pixelGroup_mem_decodeOrder hsize hin))
  rw [decodeOrder_getElem hq hj, hij, hemit, Option.some.injEq] at hpx
  rw [lowPlaneAddr_pixelGroup] at hlo
  rw [highPlaneAddr_pixelGroup] at hhi
  have hbit : pixelBit i = 7 - i % 8 := by rw [← pixelBit_eq hj, hij]
  rw [hij, ← hpx, combine8_getElem? lo hi hj, ← hbit] at heq
  exact ⟨lo, hi, hlo, hhi, heq⟩

/-- Settles O16: DECODE completes with the de-interleaver's list, and that is R43's at every element. -/
theorem decodeBuildsFreshSheet : Obligations.DecodeBuildsFreshSheet := by
  intro s hsize
  obtain ⟨e, he, hlen⟩ := exists_deinterleave hsize le_rfl
  refine ⟨e, (Completes.decode hsize he).exec_eq, he, hlen, fun i hin => ?_⟩
  obtain ⟨lo, hi, hlo, hhi, hget⟩ := deinterleave_getElem? he hsize le_rfl hin
  exact ⟨_, hget, sourcePixel_eq_combine hlo hhi⟩

/-- Settles O17: four elements for each byte, of which the size's form makes whole tiles and rows. -/
theorem decodedSheetSize : Obligations.DecodedSheetSize := by
  have hdecode : ∀ s : State, s.raw.length % 256 = 0 →
      ∃ t, exec .decode s = .next t ∧ t.sheet.length = 4 * s.raw.length := fun s hsize =>
    have ⟨_, he, hlen⟩ := exists_deinterleave hsize le_rfl
    ⟨_, (Completes.decode hsize he).exec_eq, hlen⟩
  constructor
  · intro s hsize
    obtain ⟨t, ht, hlen⟩ := hdecode s hsize
    exact ⟨t, ht, hlen, by omega⟩
  · intro s hraw
    obtain ⟨t, ht, hlen⟩ := hdecode s (by rw [hraw])
    exact ⟨t, ht, by rw [hlen, hraw]⟩

/-! ### The interleaver -/

/-- Bit `b` of a group's plane bytes is a bit of its element `7 - b` (R73). -/
theorem groupPlanes_getLsbD {sheet : List Byte} {g : Group} (hspan : 8 * groupOffset g.k g.r g.c + 8 ≤ sheet.length)
    {b : Nat} (hb : b < 8) : ∃ e, sheet[8 * groupOffset g.k g.r g.c + (7 - b)]? = some e ∧
      (groupPlanes sheet g).1.getLsbD b = e.getLsbD 0 ∧ (groupPlanes sheet g).2.getLsbD b = e.getLsbD 1 := by
  have hlen : ((sheet.drop (8 * groupOffset g.k g.r g.c)).take 8).length = 8 := by
    rw [List.length_take, List.length_drop]; omega
  obtain ⟨hlow, hhigh⟩ := getPlaneFrom_getLsbD _ (0#8, 0#8) b hb
  refine ⟨_, List.getElem?_eq_getElem (by omega), hlow.trans ?_, hhigh.trans ?_⟩ <;>
    simp [hlen, hb]

/-- Whatever the order of the groups and whatever the region held before, bit `j` of byte `a` of the interleaver's region is the
bit of the element R43 ties to it (R75, R76). -/
theorem interleaveInto_getLsbD {sheet init b : List Byte} {order : List Group} {size a j : Nat}
    (h : interleaveInto sheet order init = some b) (horder : ∀ g, g ∈ order ↔ g ∈ encodeOrder size)
    (hinit : init.length = size) (hsize : size % 256 = 0) (hle : 4 * size ≤ sheet.length) (ha : a < size) (hj : j < 8) :
    ∃ v e, b[a]? = some v ∧ sheet[pixelOfBit a j]? = some e ∧ v.getLsbD j = e.getLsbD (planeOf a) := by
  have hex : ∀ g ∈ order, g.r < 8 ∧ g.c < 16 ∧ 8 * groupOffset g.k g.r g.c + 8 ≤ sheet.length ∧
      highPlaneAddr g.k g.r g.c < init.length := fun g hg => by
    obtain ⟨hk, hr, hc⟩ := mem_encodeOrder.1 ((horder g).1 hg)
    exact ⟨hr, hc, (groupOffset_span_le hk hr hc).trans hle, hinit ▸ highPlaneAddr_lt hk hr hc⟩
  obtain ⟨res, hres, -, hplaced, -⟩ := interleaveInto_spec hex
  obtain rfl : res = b := Option.some.inj (hres.symm.trans h)
  have hmem : byteGroup a ∈ order := (horder _).2 (byteGroup_mem_encodeOrder hsize ha)
  obtain ⟨-, -, hspan, -⟩ := hex _ hmem
  obtain ⟨hlow, hhigh⟩ := hplaced _ hmem
  obtain ⟨e, he, hbit0, hbit1⟩ := groupPlanes_getLsbD hspan hj
  rw [← pixelOfBit_eq_byteGroup] at he
  rcases planeOf_eq_zero_or_one a with hplane | hplane
  · rw [lowPlaneAddr_byteGroup hplane] at hlow
    exact ⟨_, e, hlow, he, hplane ▸ hbit0⟩
  · rw [highPlaneAddr_byteGroup hplane] at hhigh
    exact ⟨_, e, hhigh, he, hplane ▸ hbit1⟩

/-- Settles O18: ENCODE completes with the interleaver's region, and that is R43's at every bit. -/
theorem encodeRebuildsRaw : Obligations.EncodeRebuildsRaw := by
  intro s size hsize hfit
  obtain ⟨b, hb, hlen⟩ := exists_interleave hfit
  exact ⟨b, (Completes.encode hsize hfit hb).exec_eq, hb, hlen, fun a ha j hj =>
    interleaveInto_getLsbD hb (fun _ => .rfl) List.length_replicate hsize hfit ha hj⟩

end Sys2Proof.Machine
end

section
/-! PROOFS. Every command answers, and what each leaves unchanged. -/

namespace Sys2Proof.Machine

/-- Settles O21: a command that does not fault completes. -/
theorem commandsNeverAccessOutOfBounds : Obligations.CommandsNeverAccessOutOfBounds := by
  intro i s
  rcases hf : commandFault i s with _ | f
  · obtain ⟨t, ht⟩ := exists_completes hf
    exact ⟨t, ht.exec_eq⟩
  · exact ⟨_, exec_of_commandFault hf⟩

/-- Without a fault the fault registers are kept (R48). -/
theorem exec_faultRegisters {i : Instr} {s t : State} (h : exec i s = .next t) (hok : commandFault i s = none) :
    t.fault = s.fault ∧ t.faultCmd = s.faultCmd := by
  rcases exec_eq_next_iff.1 h with ⟨f, hf, -⟩ | hdone
  · simp [hok] at hf
  · obtain ⟨hfault, hcmd, -⟩ := hdone.registers
    exact ⟨hfault, hcmd⟩

/-- With a fault both buffers and CI are kept (R88). -/
theorem exec_kept_of_fault {i : Instr} {s t : State} (h : exec i s = .next t) (hfault : commandFault i s ≠ none) :
    t.raw = s.raw ∧ t.sheet = s.sheet ∧ t.ci = s.ci := by
  obtain ⟨f, hf⟩ := Option.ne_none_iff_exists'.1 hfault
  obtain rfl : s.raiseFault f (encode i) = t := by simpa [exec_of_commandFault hf] using h
  exact ⟨rfl, rfl, rfl⟩

theorem exec_decode_raw {s t : State} (h : exec .decode s = .next t) : t.raw = s.raw := by
  rcases exec_eq_next_iff.1 h with ⟨f, -, rfl⟩ | hdone
  · rfl
  · cases hdone; rfl

theorem exec_encode_sheet {size : Nat} {s t : State} (h : exec (.encode size) s = .next t) : t.sheet = s.sheet := by
  rcases exec_eq_next_iff.1 h with ⟨f, -, rfl⟩ | hdone
  · rfl
  · cases hdone; rfl

/-- WRPIX keeps RAW, and in SHEET can change the one element it addresses (R72). -/
theorem exec_wrpix_buffers {x y : Nat} {v : Byte} {s t : State} (h : exec (.wrpix x y v) s = .next t) :
    t.raw = s.raw ∧ (t.sheet = s.sheet ∨ t.sheet = s.sheet.set (pixelIndex x y) v) := by
  rcases exec_eq_next_iff.1 h with ⟨f, -, rfl⟩ | hdone
  · exact ⟨rfl, .inl rfl⟩
  · cases hdone; exact ⟨rfl, .inr rfl⟩

/-- Settles O22: DECODE writes RAW in neither case. -/
theorem decodeFrame : Obligations.DecodeFrame := by
  intro s t h
  have hraw := exec_decode_raw h
  obtain ⟨hops, hreads⟩ := exec_host_side h
  refine ⟨fun a => by rw [hraw], hraw, hops, hreads, fun hsize => ?_, fun hsize => ?_⟩
  · exact exec_faultRegisters h (decodeStatus_eq_none.2 hsize)
  · obtain ⟨-, hsheet, hci⟩ := exec_kept_of_fault h (mt decodeStatus_eq_none.1 hsize)
    exact ⟨fun i => by rw [hsheet], hci⟩

/-- Settles O23: ENCODE writes SHEET in neither case. -/
theorem encodeFrame : Obligations.EncodeFrame := by
  intro size s t h
  have hsheet := exec_encode_sheet h
  obtain ⟨hops, hreads⟩ := exec_host_side h
  refine ⟨fun i => by rw [hsheet], hsheet, hops, hreads, fun hsize hfit => ?_, fun hbad => ?_⟩
  · exact exec_faultRegisters h (encodeStatus_eq_none.2 ⟨hsize, hfit⟩)
  · obtain ⟨hraw, -, hci⟩ := exec_kept_of_fault h (mt encodeStatus_eq_none.1 (by omega))
    exact ⟨fun a => by rw [hraw], hci⟩

/-- Settles O24: WRPIX sets one element of SHEET or none. -/
theorem wrpixFrame : Obligations.WrpixFrame := by
  intro x y v s t h
  obtain ⟨hraw, hsheet⟩ := exec_wrpix_buffers h
  obtain ⟨hops, hreads⟩ := exec_host_side h
  have hlen : t.sheet.length = s.sheet.length := by rcases hsheet with heq | heq <;> simp [heq]
  have hother : ∀ i, i ≠ pixelIndex x y → readBuf t.sheet i = readBuf s.sheet i := fun i hi => by
    rcases hsheet with heq | heq
    · rw [heq]
    · rw [heq, readBuf_eq, readBuf_eq, List.getElem?_set_ne hi.symm]
  refine ⟨fun a => by rw [hraw], hraw, hlen, hother, hops, hreads, fun hx hin => ?_, fun hbad => ?_⟩
  · exact exec_faultRegisters h (wrpixStatus_eq_none.2 ⟨hx, hin⟩)
  · obtain ⟨-, hkept, hci⟩ := exec_kept_of_fault h (mt wrpixStatus_eq_none.1 (by omega))
    exact ⟨fun i => by rw [hkept], hci⟩

end Sys2Proof.Machine
end

section
/-! SUPPORT. The decoder's answers, each said once: when it gives which command (R60 to R62), and when a word is illegal. -/

namespace Sys2Proof

variable {w : CmdWord}

theorem decodeWord_eq_decode_iff :
    decodeWord w = .command .decode ↔ opField w = opDecode ∧ reservedNone w = 0 := by
  unfold decodeWord
  split_ifs <;> simp_all

theorem decodeWord_eq_encode_iff {size : Nat} : decodeWord w = .command (.encode size) ↔
    opField w = opEncode ∧ reservedSize w = 0 ∧ (sizeField w).toNat = size := by
  unfold decodeWord
  split_ifs <;> simp_all [opDecode, opEncode]

theorem decodeWord_eq_wrpix_iff {x y : Nat} {v : Byte} : decodeWord w = .command (.wrpix x y v) ↔
    opField w = opWrpix ∧ reservedPix w = 0 ∧ (xField w).toNat = x ∧ (yField w).toNat = y ∧ vField w = v := by
  unfold decodeWord
  split_ifs <;> simp_all [opDecode, opEncode, opWrpix]

theorem decodeWord_of_reservedOpcode (hdec : opField w ≠ opDecode) (henc : opField w ≠ opEncode)
    (hpix : opField w ≠ opWrpix) : decodeWord w = .illegal .reservedOpcode := by
  rw [decodeWord, if_neg hdec, if_neg henc, if_neg hpix]

theorem decodeWord_of_reservedBits (h : (opField w = opDecode ∧ reservedNone w ≠ 0) ∨
    (opField w = opEncode ∧ reservedSize w ≠ 0) ∨ (opField w = opWrpix ∧ reservedPix w ≠ 0)) :
    decodeWord w = .illegal .reservedBits := by
  rcases h with ⟨hop, hres⟩ | ⟨hop, hres⟩ | ⟨hop, hres⟩
  · rw [decodeWord, if_pos hop, if_neg hres]
  · rw [decodeWord, hop, if_neg (by decide), if_pos rfl, if_neg hres]
  · rw [decodeWord, hop, if_neg (by decide), if_neg (by decide), if_pos rfl, if_neg hres]

/-- Where the mask of a row is all ones, a word that matches has the bits of the row's match (R60). -/
theorem extractLsb'_eq_of_masked {mask row : CmdWord} {start len : Nat} (h : w &&& mask = row)
    (hmask : mask.extractLsb' start len = BitVec.allOnes len) : w.extractLsb' start len = row.extractLsb' start len := by
  rw [← h, BitVec.extractLsb'_and, hmask, BitVec.and_allOnes]

end Sys2Proof
end

section
/-! PROOFS. The encoder, the opcode map, the command stream and the decoder against each other, and the step on an illegal
word. -/

namespace Sys2Proof

/-- Settles O1: every field of the encoded command is read back, and an operand that fits its field is not cut. -/
theorem encodedCommandsDecodeBack : Obligations.EncodedCommandsDecodeBack := by
  intro i hwf
  have hop := opField_encode i
  cases i with
  | decode => exact decodeWord_eq_decode_iff.2 ⟨hop, reservedNone_encode⟩
  | encode size =>
    have hsize : size < 2 ^ 32 := of_decide_eq_true hwf
    refine decodeWord_eq_encode_iff.2 ⟨hop, reservedSize_encode size, ?_⟩
    rw [sizeField_encode, BitVec.toNat_ofNat, Nat.mod_eq_of_lt hsize]
  | wrpix x y v =>
    obtain ⟨hx, hy⟩ : x < 2 ^ 8 ∧ y < 2 ^ 24 := by simpa [Instr.wellFormed, columnFits, rowFits] using hwf
    refine decodeWord_eq_wrpix_iff.2 ⟨hop, reservedPix_encode x y v, ?_, ?_, vField_encode x y v⟩
    · rw [xField_encode, BitVec.toNat_ofNat, Nat.mod_eq_of_lt hx]
    · rw [yField_encode, BitVec.toNat_ofNat, Nat.mod_eq_of_lt hy]

/-- A decoded operand is a field's number, so it fits the field (I9). -/
theorem wellFormed_of_decodeWord {w : CmdWord} {i : Instr} (h : decodeWord w = .command i) : i.wellFormed = true := by
  cases i with
  | decode => rfl
  | encode size =>
    obtain ⟨-, -, rfl⟩ := decodeWord_eq_encode_iff.1 h
    exact decide_eq_true (sizeField w).isLt
  | wrpix x y v =>
    obtain ⟨-, -, rfl, rfl, -⟩ := decodeWord_eq_wrpix_iff.1 h
    simp [Instr.wellFormed, columnFits, rowFits, (xField w).isLt, (yField w).isLt]

/-- Settles O2: the fields of a decoded word fit, and together they are the whole word. -/
theorem decodedWordsEncodeBack : Obligations.DecodedWordsEncodeBack := fun _ _ h =>
  ⟨wellFormed_of_decodeWord h, encode_eq_of_decodeWord h⟩

/-! ### The fields as arithmetic -/

theorem opField_eq_iff {w : CmdWord} {op : BitVec 8} : opField w = op ↔ w.toNat % 256 = op.toNat := by
  rw [← BitVec.toNat_inj, opField_toNat]; rfl

theorem reservedNone_eq_zero_iff {w : CmdWord} : reservedNone w = 0 ↔ w.toNat / 2 ^ 8 = 0 := by
  rw [← BitVec.toNat_inj, reservedNone_toNat, BitVec.ofNat_eq_ofNat, BitVec.toNat_zero]; omega

theorem reservedSize_eq_zero_iff {w : CmdWord} : reservedSize w = 0 ↔ w.toNat / 2 ^ 40 = 0 := by
  rw [← BitVec.toNat_inj, reservedSize_toNat, BitVec.ofNat_eq_ofNat, BitVec.toNat_zero]; omega

theorem reservedPix_eq_zero_iff {w : CmdWord} : reservedPix w = 0 ↔ w.toNat / 2 ^ 48 = 0 := by
  rw [← BitVec.toNat_inj, reservedPix_toNat, BitVec.ofNat_eq_ofNat, BitVec.toNat_zero]; omega

theorem vField_eq_ofNat (w : CmdWord) : vField w = BitVec.ofNat 8 (w.toNat / 2 ^ 40 % 2 ^ 8) := by
  rw [← vField_toNat, BitVec.ofNat_toNat, BitVec.setWidth_eq]

/-- Settles O3: each command's condition and fields are arithmetic on the word, and a word that meets no condition decodes to
no command. -/
theorem decoderReadsEveryField : Obligations.DecoderReadsEveryField := by
  intro w
  refine ⟨fun hop hres => ?_, fun hop hres => ?_, fun hop hres => ?_, fun hdec henc hpix => ?_⟩
  · exact decodeWord_eq_decode_iff.2 ⟨opField_eq_iff.2 hop, reservedNone_eq_zero_iff.2 hres⟩
  · exact decodeWord_eq_encode_iff.2 ⟨opField_eq_iff.2 hop, reservedSize_eq_zero_iff.2 hres, sizeField_toNat w⟩
  · exact decodeWord_eq_wrpix_iff.2 ⟨opField_eq_iff.2 hop, reservedPix_eq_zero_iff.2 hres, xField_toNat w,
      yField_toNat w, vField_eq_ofNat w⟩
  · rcases hd : decodeWord w with i | why
    · cases i with
      | decode =>
        obtain ⟨hop, hres⟩ := decodeWord_eq_decode_iff.1 hd
        exact absurd ⟨opField_eq_iff.1 hop, reservedNone_eq_zero_iff.1 hres⟩ hdec
      | encode size =>
        obtain ⟨hop, hres, -⟩ := decodeWord_eq_encode_iff.1 hd
        exact absurd ⟨opField_eq_iff.1 hop, reservedSize_eq_zero_iff.1 hres⟩ henc
      | wrpix x y v =>
        obtain ⟨hop, hres, -⟩ := decodeWord_eq_wrpix_iff.1 hd
        exact absurd ⟨opField_eq_iff.1 hop, reservedPix_eq_zero_iff.1 hres⟩ hpix
    · exact ⟨why, rfl⟩

/-! ### The rows of the opcode map -/

/-- A word that decodes to a command matches the command's row, because it is the command's word (R60, R61). -/
theorem matches_row_of_decodeWord {w : CmdWord} {i : Instr} (h : decodeWord w = .command i) :
    w &&& i.rowMask = i.rowMatch := by
  rw [← encode_eq_of_decodeWord h]
  cases i with
  | decode => exact Laws.EncodeMatchesRow.decode
  | encode size => exact Laws.EncodeMatchesRow.encode size
  | wrpix x y v => exact Laws.EncodeMatchesRow.wrpix x y v

/-- A row's mask covers the opcode. -/
theorem opField_rowMask (i : Instr) : opField i.rowMask = BitVec.allOnes 8 := by
  cases i <;> rw [Instr.rowMask] <;> decide

theorem opField_of_matches_row {w : CmdWord} {i : Instr} (h : w &&& i.rowMask = i.rowMatch) :
    opField w = opField i.rowMatch := extractLsb'_eq_of_masked h (opField_rowMask i)

/-- Rows of different opcodes match no word together (R60). -/
theorem not_matches_two_rows {w : CmdWord} (i j : Instr) (hne : opField i.rowMatch ≠ opField j.rowMatch) :
    ¬ (w &&& i.rowMask = i.rowMatch ∧ w &&& j.rowMask = j.rowMatch) := fun ⟨hi, hj⟩ =>
  hne ((opField_of_matches_row hi).symm.trans (opField_of_matches_row hj))

theorem matches_decode_row_iff {w : CmdWord} :
    w &&& Instr.decode.rowMask = Instr.decode.rowMatch ↔ decodeWord w = .command .decode := by
  refine ⟨fun h => ?_, matches_row_of_decodeWord⟩
  exact decodeWord_eq_decode_iff.2 ⟨opField_of_matches_row h, extractLsb'_eq_of_masked h (by decide)⟩

theorem matches_encode_row_iff {w : CmdWord} :
    w &&& (Instr.encode 0).rowMask = (Instr.encode 0).rowMatch ↔ ∃ size, decodeWord w = .command (.encode size) := by
  refine ⟨fun h => ⟨(sizeField w).toNat, ?_⟩, fun ⟨size, h⟩ => matches_row_of_decodeWord (i := .encode size) h⟩
  exact decodeWord_eq_encode_iff.2 ⟨opField_of_matches_row h, extractLsb'_eq_of_masked h (by decide), rfl⟩

theorem matches_wrpix_row_iff {w : CmdWord} : w &&& (Instr.wrpix 0 0 0).rowMask = (Instr.wrpix 0 0 0).rowMatch ↔
    ∃ x y v, decodeWord w = .command (.wrpix x y v) := by
  refine ⟨fun h => ⟨(xField w).toNat, (yField w).toNat, vField w, ?_⟩,
    fun ⟨x, y, v, h⟩ => matches_row_of_decodeWord (i := .wrpix x y v) h⟩
  exact decodeWord_eq_wrpix_iff.2
    ⟨opField_of_matches_row h, extractLsb'_eq_of_masked h (by decide), rfl, rfl, rfl⟩

/-- Settles O4: a row's match fixes the opcode and clears the reserved bits, and rows differ in the opcode. -/
theorem wordSpellsCommandOfItsRow : Obligations.WordSpellsCommandOfItsRow := fun _ =>
  ⟨matches_decode_row_iff, matches_encode_row_iff, matches_wrpix_row_iff,
    not_matches_two_rows .decode (.encode 0) (by decide), not_matches_two_rows .decode (.wrpix 0 0 0) (by decide),
    not_matches_two_rows (.encode 0) (.wrpix 0 0 0) (by decide),
    fun hdec henc hpix => ⟨_, decodeWord_of_reservedOpcode hdec henc hpix⟩⟩

/-! ### The command stream -/

/-- The bytes of a word from byte `j` up, little-endian, are the word shifted down to that byte (R64). -/
theorem leNat_bytes (w : CmdWord) (j n : Nat) :
    leNat ((List.range' j n).map fun k => w.extractLsb' (8 * k) 8) = w.toNat / 256 ^ j % 256 ^ n := by
  induction n generalizing j with
  | zero => simp [leNat, Nat.mod_one]
  | succ n ih =>
    rw [List.range'_succ, List.map_cons, leNat, ih, BitVec.extractLsb'_toNat, Nat.shiftRight_eq_div_pow, Nat.pow_mul,
      Nat.pow_succ' (m := 256) (n := n), Nat.mod_mul, Nat.div_div_eq_div_mul, ← Nat.pow_succ]

theorem leNat_bytesOfWord (w : CmdWord) : leNat (bytesOfWord w) = w.toNat := by
  have hbytes : leNat (bytesOfWord w) = w.toNat / 256 ^ 0 % 256 ^ 8 := leNat_bytes w 0 8
  rw [hbytes, Nat.pow_zero, Nat.div_one, Nat.mod_eq_of_lt (b := 256 ^ 8) w.isLt]

theorem bytesOfWord_length (w : CmdWord) : (bytesOfWord w).length = 8 := rfl

theorem wordOfBytes_bytesOfWord_append (w : CmdWord) (rest : List Byte) :
    wordOfBytes (bytesOfWord w ++ rest) = some (w, rest) := by
  have hlen := bytesOfWord_length w
  rw [wordOfBytes, if_pos (by rw [List.length_append]; omega), List.take_left' hlen, List.drop_left' hlen,
    leNat_bytesOfWord, BitVec.ofNat_toNat, BitVec.setWidth_eq]

/-- Settles O5: the eight bytes stand for the word's own number. -/
theorem commandStreamIsLittleEndian : Obligations.CommandStreamIsLittleEndian := by
  intro w rest
  refine ⟨bytesOfWord_length w, fun j hj => ?_, ?_⟩
  · interval_cases j <;> rfl
  · rw [decodeBytes, wordOfBytes_bytesOfWord_append]

/-- Settles O6, by running the decoder on the seven listings. -/
theorem writtenOutWordsDecode : Obligations.WrittenOutWordsDecode := by
  unfold Obligations.WrittenOutWordsDecode
  decide

end Sys2Proof

namespace Sys2Proof.Machine

/-- A running block takes an illegal word off the port with the fault ILLEGAL_COMMAND (R83, R88). -/
theorem step_issue_illegal {s : State} {w : CmdWord} {rest : List HostOp} {why : IllegalReason}
    (hrun : s.fault = 0x00#8) (hops : s.hostOps = .issue w :: rest) (hdec : decodeWord w = .illegal why) :
    step s = .next { s with fault := 0x01#8, faultCmd := w, hostOps := rest } :=
  (step_op hops).trans (Performs.faulted (s := s.withHostOps rest) hrun (wordFault_of_illegal hdec _)).perform_eq

/-- Settles O25: a reserved opcode or a set reserved bit makes the word illegal. -/
theorem illegalWordFaults : Obligations.IllegalWordFaults := by
  rintro s w rest hrun hops (⟨hdec, henc, hpix⟩ | hbits)
  · exact step_issue_illegal hrun hops (decodeWord_of_reservedOpcode hdec henc hpix)
  · exact step_issue_illegal hrun hops (decodeWord_of_reservedBits hbits)

end Sys2Proof.Machine
end

section
/-! PROOFS. The assembler on the tokens of a command line (R65). -/

namespace Sys2Proof

theorem encode_encode_toNat {size : Nat} (hsize : size < 2 ^ 32) :
    (encode (.encode size)).toNat = 0x02 ||| (size <<< 8) := by
  calc (encode (.encode size)).toNat
    _ = (0#24 ++ BitVec.ofNat 32 size).toNat <<< 8 ||| opEncode.toNat := BitVec.toNat_append _ _
    _ = size <<< 8 ||| 0x02 := by
      simp only [BitVec.toNat_append, BitVec.toNat_ofNat, Nat.mod_eq_of_lt hsize, Nat.zero_mod, Nat.zero_shiftLeft,
        Nat.zero_or]
      rfl
    _ = 0x02 ||| (size <<< 8) := Nat.or_comm _ _

theorem encode_wrpix_toNat {x y v : Nat} (hx : x < 2 ^ 8) (hy : y < 2 ^ 24) (hv : v < 2 ^ 8) :
    (encode (.wrpix x y (BitVec.ofNat 8 v))).toNat = 0x03 ||| (x <<< 8) ||| (y <<< 16) ||| (v <<< 40) := by
  calc (encode (.wrpix x y (BitVec.ofNat 8 v))).toNat
    _ = (0#16 ++ BitVec.ofNat 8 v ++ BitVec.ofNat 24 y ++ BitVec.ofNat 8 x).toNat <<< 8 ||| opWrpix.toNat :=
      BitVec.toNat_append _ _
    _ = ((v <<< 24 ||| y) <<< 8 ||| x) <<< 8 ||| 0x03 := by
      simp only [BitVec.toNat_append, BitVec.toNat_ofNat, Nat.mod_eq_of_lt hx, Nat.mod_eq_of_lt hy, Nat.mod_eq_of_lt hv,
        Nat.zero_mod, Nat.zero_shiftLeft, Nat.zero_or]
      rfl
    _ = 0x03 ||| (x <<< 8) ||| (y <<< 16) ||| (v <<< 40) := by
      simp only [Nat.shiftLeft_or_distrib, ← Nat.shiftLeft_add, Nat.reduceAdd, Nat.or_comm, Nat.or_assoc]

/-- A word is R65's when their numbers agree, for a word's number is below 2 ^ 64. -/
theorem encode_encode_eq_ofNat {size : Nat} (hsize : size < 2 ^ 32) :
    encode (.encode size) = BitVec.ofNat 64 (0x02 ||| (size <<< 8)) := by
  rw [← encode_encode_toNat hsize, BitVec.ofNat_toNat, BitVec.setWidth_eq]

theorem encode_wrpix_eq_ofNat {x y v : Nat} (hx : x < 2 ^ 8) (hy : y < 2 ^ 24) (hv : v < 2 ^ 8) :
    encode (.wrpix x y (BitVec.ofNat 8 v)) =
      BitVec.ofNat 64 (0x03 ||| (x <<< 8) ||| (y <<< 16) ||| (v <<< 40)) := by
  rw [← encode_wrpix_toNat hx hy hv, BitVec.ofNat_toNat, BitVec.setWidth_eq]

end Sys2Proof

namespace Sys2Proof.Machine

theorem parseOperands_one {t : List Char} {n : Nat} (h : parseNumber t = some n) : parseOperands [t] = some [n] := by
  simp [parseOperands, h]

theorem parseOperands_cons {t u : List Char} {rest : List (List Char)} {n : Nat} {ns : List Nat}
    (h : parseNumber t = some n) (hrest : parseOperands (u :: rest) = some ns) :
    parseOperands (t :: [','] :: u :: rest) = some (n :: ns) := by
  simp [parseOperands, h, hrest]

theorem assembleTokens_of_parseOperands {m : List Char} {args : List (List Char)} {ns : List Nat}
    (h : parseOperands args = some ns) : assembleTokens (m :: args) = assembleOp m ns := by
  simp [assembleTokens, h]

theorem assembleOp_encode (size : Nat) : assembleOp kwEncode [size] = assembleInstr (.encode size) := rfl

theorem assembleOp_wrpix (x y v : Nat) : assembleOp kwWrpix [x, y, v] =
    if v < 256 then assembleInstr (.wrpix x y (BitVec.ofNat 8 v)) else .rejected := rfl

theorem assembleInstr_encode (size : Nat) : assembleInstr (.encode size) =
    if size < 2 ^ 32 then .emits (.issue (encode (.encode size))) else .rejected := by
  simp [assembleInstr, Instr.wellFormed, sizeFits]

theorem assembleInstr_wrpix (x y : Nat) (v : Byte) : assembleInstr (.wrpix x y v) =
    if x < 256 ∧ y < 2 ^ 24 then .emits (.issue (encode (.wrpix x y v))) else .rejected := by
  simp [assembleInstr, Instr.wellFormed, columnFits, rowFits]

/-- Settles O7: the operands' numbers make the command, whose check of the fields is R65's and whose word is R65's. -/
theorem assemblerChecksOperandWidths : Obligations.AssemblerChecksOperandWidths := by
  refine ⟨by decide, fun t size ht => ?_, fun tx ty tv x y v hx hy hv => ?_⟩
  · rw [assembleTokens_of_parseOperands (parseOperands_one ht), assembleOp_encode, assembleInstr_encode]
    split_ifs with hsize
    · rw [encode_encode_eq_ofNat hsize]
    · rfl
  · rw [assembleTokens_of_parseOperands (parseOperands_cons hx (parseOperands_cons hy (parseOperands_one hv))),
      assembleOp_wrpix, assembleInstr_wrpix, ← ite_and]
    refine if_ctx_congr (by tauto) (fun h => ?_) fun _ => rfl
    rw [encode_wrpix_eq_ofNat h.1 h.2.1 h.2.2]

end Sys2Proof.Machine
end

section
/-! PROOFS. The combiner's lanes, the range of what it gives, and the de-interleaver's loop against R43 in the coordinates of
R69. -/

namespace Sys2Proof.Machine

/-! ### The combiner -/

theorem combine_eq_ofNat_bits (lo hi : Byte) (b : Nat) :
    combine lo hi b = BitVec.ofNat 8 ((lo.getLsbD b).toNat + 2 * (hi.getLsbD b).toNat) := by
  rw [combine, bitOf_eq_getLsbD, bitOf_eq_getLsbD]

/-- Bits [7:2] of a color index are zero (R68). -/
theorem combine_getLsbD_of_two_le (lo hi : Byte) (b : Nat) {j : Nat} (hj : 2 ≤ j) :
    (combine lo hi b).getLsbD j = false :=
  Nat.testBit_lt_two_pow ((combine_lt_four lo hi b).trans_le (Nat.pow_le_pow_right Nat.two_pos hj))

/-- Settles O8: the eight lanes in the combiner's own order, each made of one bit of each plane byte. -/
theorem combinerLanesReadOneBitOfEachPlane : Obligations.CombinerLanesReadOneBitOfEachPlane :=
  ⟨fun lo hi => ⟨combine8_length lo hi, fun _ hj => ⟨combine8_getElem? lo hi hj, combine_eq_ofNat_bits lo hi _⟩⟩,
    by decide⟩

/-- Settles O9: a color index is two bits, and every element DECODE writes is one. -/
theorem decodedElementsAreTwoBits : Obligations.DecodedElementsAreTwoBits := by
  constructor
  · intro lo hi b _
    refine ⟨combine_lt_four lo hi b, fun j hj => combine_getLsbD_of_two_le lo hi b hj, ?_, ?_, ?_, ?_⟩ <;>
      (intro hlo hhi; rw [combine_eq_ofNat_bits, hlo, hhi]; rfl)
  · intro s hsize
    obtain ⟨e, he, -⟩ := exists_deinterleave hsize le_rfl
    exact ⟨_, (Completes.decode hsize he).exec_eq, lt_four_of_mem_deinterleaveOver he⟩

/-! ### The cursor values of a group -/

/-- The cursor value R70 gives tile-row `k`, pixel-row `r`, tile-column `c`, bit `b`, by the group's number. -/
theorem cursor_eq_groupOffset (k r c b : Nat) :
    (8 * k + r) * 128 + 8 * c + (7 - b) = 8 * groupOffset k r c + (7 - b) := by
  rw [groupOffset_eq]; omega

theorem pixelLowAddr_groupOffset {k r c j : Nat} (hr : r < 8) (hc : c < 16) (hj : j < 8) :
    pixelLowAddr (8 * groupOffset k r c + j) = c * 16 + r + 256 * k := by
  rw [← lowPlaneAddr_pixelGroup, pixelGroup_groupOffset (g := ⟨k, r, c⟩) hr hc hj, lowPlaneAddr_eq]

/-- Settles O14: the loop's element at a cursor value is R43's, and in coordinates the cursor value is a place in a group. -/
theorem deinterleaverMatchesClosedForm : Obligations.DeinterleaverMatchesClosedForm := by
  intro raw n hsize hle
  obtain ⟨out, hout, hlen⟩ := exists_deinterleave hsize hle
  refine ⟨out, hout, hlen, fun p hp => ?_, fun k r c b hk hr hc hb => ?_⟩
  · obtain ⟨lo, hi, hlo, hhi, hget⟩ := deinterleave_getElem? hout hsize hle hp
    exact ⟨_, hget, sourcePixel_eq_combine hlo hhi⟩
  · have hj : 7 - b < 8 := by omega
    have hspan := groupOffset_span_le hk hr hc
    have hlow := pixelLowAddr_groupOffset (k := k) hr hc hj
    have hhigh : pixelHighAddr (8 * groupOffset k r c + (7 - b)) = c * 16 + r + 256 * k + 8 :=
      congrArg (· + 8) hlow
    have hbit : pixelBit (8 * groupOffset k r c + (7 - b)) = b := by rw [pixelBit_eq hj]; omega
    obtain ⟨lo, hi, hlo, hhi, hget⟩ := deinterleave_getElem? hout hsize hle
      (show 8 * groupOffset k r c + (7 - b) < 4 * n by omega)
    rw [hlow] at hlo
    rw [hhigh] at hhi
    rw [hbit] at hget
    refine ⟨by omega, by omega, ?_⟩
    rw [cursor_eq_groupOffset]
    exact ⟨hlow, hhigh, lo, hi, hlo, hhi, hget⟩

end Sys2Proof.Machine
end

section
/-! PROOFS. The single-pixel write of R72: what one WRPIX stores, what it faults with, and two of them to one pixel. -/

namespace Sys2Proof.Machine

/-- R86: outside the canvas or the sheet the check answers BOUNDS, and the command takes that fault. -/
theorem exec_wrpix_outside {s : State} {x y : Nat} (v : Byte) (hout : 128 ≤ x ∨ s.sheet.length ≤ y * 128 + x) :
    exec (.wrpix x y v) s = .next (s.raiseFault .bounds (encode (.wrpix x y v))) :=
  exec_of_commandFault (wrpixStatus_eq_some.2 ⟨hout, rfl⟩)

/-- Settles O19: inside the sheet the new SHEET is the old one with one element set; outside it WRPIX takes its fault. -/
theorem wrpixStoresOnePixel : Obligations.WrpixStoresOnePixel := by
  constructor
  · intro s x y v hx hin
    refine ⟨s.sheet.set (pixelIndex x y) v, (Completes.wrpix hx hin).exec_eq, List.length_set, ?_, fun i hi => ?_⟩
    · exact List.getElem?_set_self hin
    · exact List.getElem?_set_ne hi.symm
  · intro s x y v hout
    exact exec_wrpix_outside v hout

/-- Writing the pixel again completes in the state the later write alone gives, with CI one more (R72). -/
theorem completes_wrpix_again {s : State} {x y : Nat} (v v' : Byte) (hx : x < 128)
    (hin : y * 128 + x < s.sheet.length) :
    Completes (.wrpix x y v') (s.replaceSheet (s.sheet.set (pixelIndex x y) v)).complete
      (s.replaceSheet (s.sheet.set (pixelIndex x y) v')).complete.complete := by
  have hagain := Completes.wrpix (s := (s.replaceSheet (s.sheet.set (pixelIndex x y) v)).complete) (v := v') hx
    (by simpa using hin)
  have hoverwrite : (s.sheet.set (pixelIndex x y) v).set (pixelIndex x y) v' = s.sheet.set (pixelIndex x y) v' :=
    List.set_set ..
  rw [← hoverwrite]
  exact hagain

/-- Settles O20: the later write sets the element the earlier one set, so the earlier one leaves its count in CI only. -/
theorem laterPixelWriteWins : Obligations.LaterPixelWriteWins := by
  intro s x y v v' hx hin
  exact ⟨_, _, (Completes.wrpix hx hin).exec_eq, (completes_wrpix_again v v' hx hin).exec_eq,
    (Completes.wrpix hx hin).exec_eq, rfl⟩

end Sys2Proof.Machine
end

section
/-! PROOFS. The splitter of R73 against the combiner of R67: the bits each takes from the other, and the two as inverses (R74). -/

namespace Sys2Proof.Machine

/-- Each of 8 elements gives its low two bits to the accumulators, and nothing of their start is left (R73). -/
theorem getPlaneFrom_getLsbD_of_length (start : Byte × Byte) {es : List Byte} (hlen : es.length = 8) {j : Nat}
    (hj : j < 8) : ∃ e, es[j]? = some e ∧ (getPlaneFrom start es).1.getLsbD (7 - j) = e.getLsbD 0 ∧
      (getPlaneFrom start es).2.getLsbD (7 - j) = e.getLsbD 1 := by
  obtain ⟨hlow, hhigh⟩ := getPlaneFrom_getLsbD es start (7 - j) (by omega)
  have hlast : es.length - 1 - (7 - j) = j := by omega
  refine ⟨es[j], List.getElem?_eq_getElem _, hlow.trans ?_, hhigh.trans ?_⟩ <;>
    rw [dif_pos (by omega)] <;> simp only [hlast]

/-- Settles O10: after 8 elements each accumulator holds one bit of each, the first element's at the top. -/
theorem splitterTakesTwoBitsOfEachElement : Obligations.SplitterTakesTwoBitsOfEachElement :=
  ⟨fun start _ hlen _ hj => getPlaneFrom_getLsbD_of_length start hlen hj, fun _ => rfl, by decide⟩

theorem combine_getLsbD_zero (lo hi : Byte) (b : Nat) : (combine lo hi b).getLsbD 0 = lo.getLsbD b := by
  rw [combine_eq_ofNat_bits]
  cases lo.getLsbD b <;> cases hi.getLsbD b <;> rfl

theorem combine_getLsbD_one (lo hi : Byte) (b : Nat) : (combine lo hi b).getLsbD 1 = hi.getLsbD b := by
  rw [combine_eq_ofNat_bits]
  cases lo.getLsbD b <;> cases hi.getLsbD b <;> rfl

theorem masked_toNat (e : Byte) : (e &&& 3#8).toNat = e.toNat % 4 :=
  (BitVec.toNat_and e 3#8).trans (Nat.and_two_pow_sub_one_eq_mod e.toNat 2)

theorem masked_getLsbD (e : Byte) (j : Nat) : (e &&& 3#8).getLsbD j = (decide (j < 2) && e.getLsbD j) := by
  rw [BitVec.getLsbD, masked_toNat, show 4 = 2 ^ 2 from rfl, Nat.testBit_mod_two_pow, BitVec.getLsbD]

theorem masked_getLsbD_of_lt_two (e : Byte) {j : Nat} (hj : j < 2) : (e &&& 3#8).getLsbD j = e.getLsbD j := by
  rw [masked_getLsbD, decide_eq_true hj, Bool.true_and]

theorem masked_eq_self {e : Byte} (h : e.toNat < 4) : e &&& 3#8 = e :=
  BitVec.eq_of_toNat_eq ((masked_toNat e).trans (Nat.mod_eq_of_lt h))

/-- The combiner gives back what the splitter takes: from an element's two bits, the element masked (R74). -/
theorem combine_eq_masked {lo hi e : Byte} {b : Nat} (hlo : lo.getLsbD b = e.getLsbD 0)
    (hhi : hi.getLsbD b = e.getLsbD 1) : combine lo hi b = e &&& 3#8 := by
  refine BitVec.eq_of_getLsbD_eq fun j _ => ?_
  rw [masked_getLsbD]
  match j with
  | 0 => exact (combine_getLsbD_zero lo hi b).trans hlo
  | 1 => exact (combine_getLsbD_one lo hi b).trans hhi
  | j + 2 => exact combine_getLsbD_of_two_le lo hi b (by omega)

theorem getPlane_combine8 (lo hi : Byte) : getPlane (combine8 lo hi) = (lo, hi) := by
  have hbits : ∀ b < 8, (getPlane (combine8 lo hi)).1.getLsbD b = lo.getLsbD b ∧
      (getPlane (combine8 lo hi)).2.getLsbD b = hi.getLsbD b := fun b hb => by
    obtain ⟨e, he, hlow, hhigh⟩ :=
      getPlaneFrom_getLsbD_of_length (0#8, 0#8) (combine8_length lo hi) (show 7 - b < 8 by omega)
    have hlane : 7 - (7 - b) = b := by omega
    rw [combine8_getElem? lo hi (by omega), hlane, Option.some.injEq] at he
    rw [hlane] at hlow hhigh
    subst he
    exact ⟨hlow.trans (combine_getLsbD_zero lo hi b), hhigh.trans (combine_getLsbD_one lo hi b)⟩
  exact Prod.ext (BitVec.eq_of_getLsbD_eq fun b hb => (hbits b hb).1)
    (BitVec.eq_of_getLsbD_eq fun b hb => (hbits b hb).2)

theorem combine8_getPlane {es : List Byte} (hlen : es.length = 8) :
    combine8 (getPlane es).1 (getPlane es).2 = es.map (· &&& 3#8) := by
  refine List.ext_getElem? fun j => ?_
  by_cases hj : j < 8
  · obtain ⟨e, he, hlow, hhigh⟩ := getPlaneFrom_getLsbD_of_length (0#8, 0#8) hlen hj
    rw [combine8_getElem? _ _ hj, List.getElem?_map, he]
    exact congrArg some (combine_eq_masked hlow hhigh)
  · rw [List.getElem?_eq_none (by rw [combine8_length]; omega),
      List.getElem?_eq_none (by rw [List.length_map]; omega)]

theorem map_masked_eq_self {es : List Byte} (h : ∀ e ∈ es, e.toNat < 4) : es.map (· &&& 3#8) = es :=
  (List.map_congr_left fun e he => masked_eq_self (h e he)).trans (List.map_id es)

/-- Settles O11: the combiner's lanes are the splitter's bits, so each undoes the other up to the mask. -/
theorem splitterAndCombinerAreInverse : Obligations.SplitterAndCombinerAreInverse :=
  ⟨getPlane_combine8, fun _ => combine8_getPlane,
    fun _ hlen hsmall => (combine8_getPlane hlen).trans (map_masked_eq_self hsmall)⟩

end Sys2Proof.Machine
end

section
/-! PROOFS. Which bytes a region of ENCODE is made of: every address once, and at every address the bits R43 ties to it. The
region is fixed by the sheet's low two bits, so neither order nor earlier contents nor anything else of the sheet matters. -/

namespace Sys2Proof.Machine

/-! ### The addresses written -/

/-- The two RAW addresses of a group. -/
def Group.planeAddrs (g : Group) : List Nat := [lowPlaneAddr g.k g.r g.c, highPlaneAddr g.k g.r g.c]

theorem length_encodeOrder (size : Nat) : (encodeOrder size).length = 128 * (size / 256) := by
  simp [encodeOrder, List.length_flatMap, Nat.mul_comm]

/-- Every address of the region is written, by the group it is a plane byte of (R76). -/
theorem mem_planeAddrs_byteGroup (a : Nat) : a ∈ (byteGroup a).planeAddrs := by
  rcases planeOf_eq_zero_or_one a with hplane | hplane
  · exact List.mem_cons.2 (.inl (lowPlaneAddr_byteGroup hplane).symm)
  · exact List.mem_cons_of_mem _ (List.mem_singleton.2 (highPlaneAddr_byteGroup hplane).symm)

/-- The order writes as many addresses as the region has, and leaves none out, so it writes none twice (R76). -/
theorem encodeOrder_planeAddrs_perm {size : Nat} (hsize : size % 256 = 0) :
    ((encodeOrder size).flatMap Group.planeAddrs).Perm (List.range size) := by
  have hcover : List.range size ⊆ (encodeOrder size).flatMap Group.planeAddrs := fun a ha =>
    List.mem_flatMap.2 ⟨byteGroup a, byteGroup_mem_encodeOrder hsize (List.mem_range.1 ha), mem_planeAddrs_byteGroup a⟩
  have hcount : ((encodeOrder size).flatMap Group.planeAddrs).length = size := by
    have htwo : ∀ g ∈ encodeOrder size, g.planeAddrs.length = 2 := fun _ _ => rfl
    rw [List.length_flatMap, List.map_congr_left htwo, List.map_const', List.sum_replicate, length_encodeOrder]
    simp only [smul_eq_mul]
    omega
  refine ((List.subperm_of_subset List.nodup_range hcover).perm_of_length_le ?_).symm
  rw [hcount, List.length_range]

/-! ### The region, bit by bit -/

/-- `b` is a region of `size` bytes made of the bit planes of `sheet` (R43, the converse). -/
structure IsPlanesOf (sheet : List Byte) (size : Nat) (b : List Byte) : Prop where
  length_eq : b.length = size
  bits : ∀ a < size, ∀ j < 8, ∃ v e, b[a]? = some v ∧ sheet[pixelOfBit a j]? = some e ∧
    v.getLsbD j = e.getLsbD (planeOf a)

/-- The interleaver's loop answers with the sheet's planes, whatever the order and whatever the region held (R76). -/
theorem exists_interleaveInto {sheet init : List Byte} {order : List Group} {size : Nat} (hsize : size % 256 = 0)
    (hfit : 4 * size ≤ sheet.length) (horder : ∀ g, g ∈ order ↔ g ∈ encodeOrder size) (hinit : init.length = size) :
    ∃ b, interleaveInto sheet order init = some b ∧ IsPlanesOf sheet size b := by
  have hex : ∀ g ∈ order, g.r < 8 ∧ g.c < 16 ∧ 8 * groupOffset g.k g.r g.c + 8 ≤ sheet.length ∧
      highPlaneAddr g.k g.r g.c < init.length := fun g hg => by
    obtain ⟨hk, hr, hc⟩ := mem_encodeOrder.1 ((horder g).1 hg)
    exact ⟨hr, hc, (groupOffset_span_le hk hr hc).trans hfit, hinit ▸ highPlaneAddr_lt hk hr hc⟩
  obtain ⟨b, hb, hlen, -⟩ := interleaveInto_spec hex
  exact ⟨b, hb, hlen.trans hinit, fun a ha j hj => interleaveInto_getLsbD hb horder hinit hsize hfit ha hj⟩

theorem exists_interleave_planes {sheet : List Byte} {size : Nat} (hsize : size % 256 = 0)
    (hfit : 4 * size ≤ sheet.length) : ∃ b, interleave sheet size = some b ∧ IsPlanesOf sheet size b :=
  exists_interleaveInto hsize hfit (fun _ => .rfl) List.length_replicate

theorem planeOf_lt_two (a : Nat) : planeOf a < 2 := by
  have := planeOf_eq_zero_or_one a
  omega

/-- Bits 0 and 1 are what the mask keeps, and a plane is one of the two. -/
theorem getLsbD_planeOf_eq_of_masked_eq {e e' : Byte} (h : e &&& 3#8 = e' &&& 3#8) (a : Nat) :
    e.getLsbD (planeOf a) = e'.getLsbD (planeOf a) := by
  rw [← masked_getLsbD_of_lt_two e (planeOf_lt_two a), h, masked_getLsbD_of_lt_two e' (planeOf_lt_two a)]

/-- Sheets that agree in the low two bits of the elements the region is made of have the same planes (R73, D6). -/
theorem IsPlanesOf.unique {sheet sheet' b b' : List Byte} {size : Nat} (h : IsPlanesOf sheet size b)
    (h' : IsPlanesOf sheet' size b') (hsize : size % 256 = 0)
    (hagree : ∀ (i : Nat) (e e' : Byte), i < 4 * size → sheet[i]? = some e → sheet'[i]? = some e' →
      e &&& 3#8 = e' &&& 3#8) : b = b' := by
  refine List.ext_getElem (h.length_eq.trans h'.length_eq.symm) fun a ha ha' => ?_
  refine BitVec.eq_of_getLsbD_eq fun j hj => ?_
  have hlt : a < size := h.length_eq ▸ ha
  obtain ⟨v, e, hv, he, hbit⟩ := h.bits a hlt j hj
  obtain ⟨v', e', hv', he', hbit'⟩ := h'.bits a hlt j hj
  rw [(List.getElem_eq_iff _).2 hv, (List.getElem_eq_iff _).2 hv', hbit, hbit']
  exact getLsbD_planeOf_eq_of_masked_eq (hagree _ e e' (pixelOfBit_lt hsize hlt j) he he') a

theorem IsPlanesOf.unique_of_sheet {sheet b b' : List Byte} {size : Nat} (h : IsPlanesOf sheet size b)
    (h' : IsPlanesOf sheet size b') (hsize : size % 256 = 0) : b = b' :=
  h.unique h' hsize fun _ _ _ _ he he' => by rw [Option.some.inj (he.symm.trans he')]

/-- Settles O15: the order writes each address once, and the loop's answer is the one region of the sheet's planes. -/
theorem interleaverWritesEveryByteOnce : Obligations.InterleaverWritesEveryByteOnce := by
  intro size hsize
  refine ⟨encodeOrder_planeAddrs_perm hsize, fun g hg => ?_, fun hpos => ?_, fun g => ?_, fun sheet hfit => ?_⟩
  · obtain ⟨hk, hr, hc⟩ := mem_encodeOrder.1 hg
    have hspan := groupOffset_span_le hk hr hc
    rw [groupOffset_eq] at hspan ⊢
    omega
  · refine ⟨⟨size / 256 - 1, 7, 15⟩, ?_, ?_⟩
    · simp only [mem_encodeOrder]; omega
    · simp only [groupOffset_eq]; omega
  · rw [mem_decodeOrder, mem_encodeOrder]
  · obtain ⟨out, hout, hplanes⟩ := exists_interleave_planes hsize hfit
    refine ⟨out, hout, hplanes.length_eq, hplanes.bits, fun order init horder hinit => ?_⟩
    obtain ⟨b, hb, hplanes'⟩ := exists_interleaveInto hsize hfit horder hinit
    rw [hb, hplanes.unique_of_sheet hplanes' hsize]

/-- Settles O49: ENCODE completes with the planes of the sheet, and those are the same of both. -/
theorem encodeIgnoresHighBitsAndTail : Obligations.EncodeIgnoresHighBitsAndTail := by
  intro s s' size hsize hfit hfit' hagree
  obtain ⟨b, hb, hplanes⟩ := exists_interleave_planes hsize hfit
  obtain ⟨b', hb', hplanes'⟩ := exists_interleave_planes hsize hfit'
  exact ⟨_, _, (Completes.encode hsize hfit hb).exec_eq, (Completes.encode hsize hfit' hb').exec_eq,
    hplanes.unique hplanes' hsize hagree⟩

end Sys2Proof.Machine
end

section
/-! PROOFS. The round trips of R78 to R81: each unit's output is what the other makes its input from, at `exec` and as a run of
two issued words. -/

namespace Sys2Proof.Machine

/-! ### The units against each other -/

/-- RAW is the planes of the sheet DECODE makes of it: the de-interleaver and the converse map of R43 agree (R70, R78). -/
theorem isPlanesOf_deinterleave {raw e : List Byte} (hsize : raw.length % 256 = 0)
    (h : deinterleave raw raw.length = some e) : IsPlanesOf e raw.length raw := by
  refine ⟨rfl, fun a ha j hj => ?_⟩
  obtain ⟨lo, hi, hlo, hhi, hget⟩ := deinterleave_getElem? h hsize le_rfl (pixelOfBit_lt hsize ha j)
  rw [pixelBit_pixelOfBit a hj] at hget
  rcases planeOf_eq_zero_or_one a with hplane | hplane
  · rw [pixelLowAddr_pixelOfBit hplane] at hlo
    exact ⟨lo, _, hlo, hget, by rw [hplane, combine_getLsbD_zero]⟩
  · rw [pixelHighAddr_pixelOfBit hplane] at hhi
    exact ⟨hi, _, hhi, hget, by rw [hplane, combine_getLsbD_one]⟩

/-- Element `i` of the sheet has its low two bits in the two plane bytes R43 names, at the bit R43 names. -/
theorem IsPlanesOf.pixel {sheet b : List Byte} {n i : Nat} (h : IsPlanesOf sheet n b) (hsize : n % 256 = 0)
    (hin : i < 4 * n) : ∃ e, sheet[i]? = some e ∧
      (∀ lo, b[pixelLowAddr i]? = some lo → lo.getLsbD (pixelBit i) = e.getLsbD 0) ∧
      ∀ hi, b[pixelHighAddr i]? = some hi → hi.getLsbD (pixelBit i) = e.getLsbD 1 := by
  have hbit : pixelBit i < 8 := by rw [pixelBit]; omega
  obtain ⟨lo, e, hlo, he, hlow⟩ := h.bits _ (pixelLowAddr_lt hsize hin) _ hbit
  obtain ⟨hi, e', hhi, he', hhigh⟩ := h.bits _ (pixelHighAddr_lt hsize hin) _ hbit
  rw [pixelOfBit_pixelLowAddr] at he
  rw [pixelOfBit_pixelHighAddr] at he'
  obtain rfl : e = e' := Option.some.inj (he.symm.trans he')
  rw [planeOf_pixelLowAddr] at hlow
  rw [planeOf_pixelHighAddr] at hhigh
  exact ⟨e, he, fun _ h => Option.some.inj (hlo.symm.trans h) ▸ hlow,
    fun _ h => Option.some.inj (hhi.symm.trans h) ▸ hhigh⟩

/-- The planes put back together are the elements they were made from, masked (R80). -/
theorem deinterleave_planes {sheet b : List Byte} {n : Nat} (h : IsPlanesOf sheet n b) (hsize : n % 256 = 0)
    (hfit : 4 * n ≤ sheet.length) : deinterleave b n = some ((sheet.take (4 * n)).map (· &&& 3#8)) := by
  obtain ⟨e, he, hlen⟩ := exists_deinterleave hsize h.length_eq.ge
  rw [he, Option.some.injEq]
  refine List.ext_getElem (by rw [hlen, List.length_map, List.length_take_of_le hfit]) fun i hie _ => ?_
  have hin : i < 4 * n := hlen ▸ hie
  obtain ⟨lo, hi, hlo, hhi, hget⟩ := deinterleave_getElem? he hsize h.length_eq.ge hin
  obtain ⟨x, hx, hlow, hhigh⟩ := h.pixel hsize hin
  rw [(List.getElem_eq_iff _).2 hget, combine_eq_masked (hlow lo hlo) (hhigh hi hhi), List.getElem_map,
    List.getElem_take, (List.getElem_eq_iff _).2 hx]

/-! ### Runs of issued commands -/

/-- Issuing the word of a command that completes goes on with the rest from where it completes (R30, R51). -/
theorem performAll_issue_of_completes {i : Instr} {s t : State} (hwf : i.wellFormed = true) (hrun : s.fault = 0x00#8)
    (hdone : Completes i s t) (ops : List HostOp) :
    performAll (.issue (encode i) :: ops) s = performAll ops t := by
  have hissue : Performs (.issue (encode i)) s t := .completed hrun (encodedCommandsDecodeBack i hwf) hdone
  rw [performAll_cons, (hissue.withHostOps ops).perform_eq]
  rfl

/-- Two commands that complete one after the other complete as a run of their words too, without fault. -/
theorem performAll_two_of_completes {i j : Instr} {s t u : State} (hi : i.wellFormed = true) (hj : j.wellFormed = true)
    (hrun : s.fault = 0x00#8) (hfirst : Completes i s t) (hsecond : Completes j t u) :
    performAll [.issue (encode i), .issue (encode j)] s = .next (u.withHostOps []) := by
  rw [performAll_issue_of_completes hi hrun hfirst,
    performAll_issue_of_completes hj (hfirst.registers.1.trans hrun) hsecond, performAll_nil]

theorem fault_of_two_completes {i j : Instr} {s t u : State} (hrun : s.fault = 0x00#8) (hfirst : Completes i s t)
    (hsecond : Completes j t u) : u.fault = 0x00#8 :=
  hsecond.registers.1.trans (hfirst.registers.1.trans hrun)

theorem wellFormed_encode {n : Nat} (h : n < 2 ^ 32) : (Instr.encode n).wellFormed = true := decide_eq_true h

/-! ### The commands after each other -/

/-- DECODE, then ENCODE of the same length: the region ENCODE makes is the one DECODE read (R78). -/
theorem completes_decode_encode {s : State} (hsize : s.raw.length % 256 = 0) :
    ∃ t u, Completes .decode s t ∧ Completes (.encode s.raw.length) t u ∧ u.raw = s.raw := by
  obtain ⟨e, he, hlen⟩ := exists_deinterleave hsize le_rfl
  obtain ⟨b, hb, hplanes⟩ := exists_interleave_planes hsize hlen.ge
  exact ⟨(s.replaceSheet e).complete, _, .decode hsize he, .encode hsize hlen.ge hb,
    hplanes.unique_of_sheet (isPlanesOf_deinterleave hsize he) hsize⟩

/-- ENCODE, then DECODE: DECODE's sheet is what ENCODE read of the old one (R80). -/
theorem completes_encode_decode {s : State} {n : Nat} (hsize : n % 256 = 0) (hfit : 4 * n ≤ s.sheet.length) :
    ∃ t u, Completes (.encode n) s t ∧ Completes .decode t u ∧
      u.sheet = (s.sheet.take (4 * n)).map (· &&& 3#8) := by
  obtain ⟨b, hb, hplanes⟩ := exists_interleave_planes hsize hfit
  obtain rfl := hplanes.length_eq
  exact ⟨(s.replaceRaw b).complete, _, .encode hsize hfit hb, .decode hsize (deinterleave_planes hplanes hsize hfit), rfl⟩

/-- Settles O50: RAW and the region ENCODE makes are both the planes of DECODE's sheet. -/
theorem rawRoundTrip : Obligations.RawRoundTrip := by
  rintro s _ hrun rfl hsize
  obtain ⟨t, u, hdecode, hencode, hraw⟩ := completes_decode_encode hsize
  have hquiet := fault_of_two_completes hrun hdecode hencode
  exact ⟨⟨t, u, hdecode.exec_eq, hencode.exec_eq, hraw, hquiet⟩, fun hn =>
    ⟨_, performAll_two_of_completes rfl (wellFormed_encode hn) hrun hdecode hencode, hraw, hquiet⟩⟩

/-- Settles O52: DECODE puts the planes ENCODE made back together. -/
theorem maskedSheetRoundTrip : Obligations.MaskedSheetRoundTrip := by
  intro s n hrun hsize hfit
  obtain ⟨t, u, hencode, hdecode, hsheet⟩ := completes_encode_decode hsize hfit
  have hquiet := fault_of_two_completes hrun hencode hdecode
  have hlen : u.sheet.length = 4 * n := by rw [hsheet, List.length_map, List.length_take_of_le hfit]
  exact ⟨⟨t, u, hencode.exec_eq, hdecode.exec_eq, hquiet, hlen, hsheet⟩, fun hn =>
    ⟨_, performAll_two_of_completes (wellFormed_encode hn) rfl hrun hencode hdecode, hquiet, hlen, hsheet⟩⟩

/-- Settles O51: the masked round trip of the whole sheet, where the mask keeps every element. -/
theorem sheetRoundTrip : Obligations.SheetRoundTrip := by
  intro s n hrun hlen hsize hsmall
  have hwhole : (s.sheet.take (4 * n)).map (· &&& 3#8) = s.sheet := by
    rw [← hlen, List.take_length, map_masked_eq_self hsmall]
  obtain ⟨⟨t, u, hencode, hdecode, hquiet, -, hsheet⟩, hissued⟩ := maskedSheetRoundTrip s n hrun hsize hlen.ge
  refine ⟨⟨t, u, hencode, hdecode, hsheet.trans hwhole, hquiet⟩, fun hn => ?_⟩
  obtain ⟨u, hu, hquiet, -, hsheet⟩ := hissued hn
  exact ⟨u, hu, hsheet.trans hwhole, hquiet⟩

theorem Completes.decode_again {s t : State} (h : Completes .decode s t) :
    ∃ u, Completes .decode t u ∧ u.sheet = t.sheet := by
  cases h with
  | decode hsize hunit => exact ⟨_, .decode hsize hunit, rfl⟩

theorem Completes.encode_again {size : Nat} {s t : State} (h : Completes (.encode size) s t) :
    ∃ u, Completes (.encode size) t u ∧ u.raw = t.raw := by
  cases h with
  | encode hsize hfit hunit => exact ⟨_, .encode hsize hfit hunit, rfl⟩

/-- Settles O53: each command leaves its own input alone, so it reads the same again. -/
theorem transcodingIsDeterministic : Obligations.TranscodingIsDeterministic := by
  constructor
  · intro s hsize
    obtain ⟨e, he, hlen⟩ := exists_deinterleave hsize le_rfl
    have hdecode := Completes.decode hsize he
    obtain ⟨u, hagain, hsheet⟩ := hdecode.decode_again
    exact ⟨_, u, hdecode.exec_eq, hagain.exec_eq, hlen, lt_four_of_mem_deinterleaveOver he, hsheet⟩
  · intro s size hsize hfit
    obtain ⟨t, hencode⟩ := exists_completes (i := .encode size) (encodeStatus_eq_none.2 ⟨hsize, hfit⟩)
    obtain ⟨u, hagain, hraw⟩ := hencode.encode_again
    exact ⟨t, u, hencode.exec_eq, hagain.exec_eq, hraw⟩

end Sys2Proof.Machine
end

section
/-! PROOFS. The faults of issued words: which word takes which fault, what the step then answers, and how the block leaves the
halted state. -/

namespace Sys2Proof.Machine

/-! ### Which word takes which fault -/

/-- The causes of the four faults for an issued word, read off the word and the two lengths (R83 to R86). It says what
`wordFault` computes: `wordFault_eq_some_iff`. -/
inductive WordFaults (w : CmdWord) (s : State) : FaultCode → Prop where
  | illegal {why : IllegalReason} (hdec : decodeWord w = .illegal why) : WordFaults w s .illegalCommand
  | rawSize (hdec : decodeWord w = .command .decode) (hsize : s.raw.length % 256 ≠ 0) : WordFaults w s .invalidSize
  | encodeSize {size : Nat} (hdec : decodeWord w = .command (.encode size)) (hsize : size % 256 ≠ 0) :
      WordFaults w s .invalidSize
  | shortSheet {size : Nat} (hdec : decodeWord w = .command (.encode size)) (hsize : size % 256 = 0)
      (hshort : s.sheet.length < 4 * size) : WordFaults w s .sheetTooShort
  | outside {x y : Nat} {v : Byte} (hdec : decodeWord w = .command (.wrpix x y v))
      (hout : 128 ≤ x ∨ s.sheet.length ≤ y * 128 + x) : WordFaults w s .bounds

theorem WordFaults.wordFault_eq {w : CmdWord} {s : State} {f : FaultCode} (h : WordFaults w s f) :
    wordFault w s = some f := by
  cases h with
  | illegal hdec => exact wordFault_of_illegal hdec s
  | rawSize hdec hsize => exact (wordFault_of_command hdec s).trans (decodeStatus_eq_some.2 ⟨hsize, rfl⟩)
  | encodeSize hdec hsize => exact (wordFault_of_command hdec s).trans (encodeStatus_eq_some.2 (.inl ⟨hsize, rfl⟩))
  | shortSheet hdec hsize hshort =>
    exact (wordFault_of_command hdec s).trans (encodeStatus_eq_some.2 (.inr ⟨hsize, hshort, rfl⟩))
  | outside hdec hout => exact (wordFault_of_command hdec s).trans (wrpixStatus_eq_some.2 ⟨hout, rfl⟩)

theorem wordFault_eq_some_iff {w : CmdWord} {s : State} {f : FaultCode} :
    wordFault w s = some f ↔ WordFaults w s f := by
  refine ⟨fun h => ?_, WordFaults.wordFault_eq⟩
  rcases hdec : decodeWord w with i | why
  · rw [wordFault_of_command hdec] at h
    cases i with
    | decode =>
      obtain ⟨hsize, rfl⟩ := decodeStatus_eq_some.1 h
      exact .rawSize hdec hsize
    | encode size =>
      obtain ⟨hsize, rfl⟩ | ⟨hsize, hshort, rfl⟩ := encodeStatus_eq_some.1 h
      · exact .encodeSize hdec hsize
      · exact .shortSheet hdec hsize hshort
    | wrpix x y v =>
      obtain ⟨hout, rfl⟩ := wrpixStatus_eq_some.1 h
      exact .outside hdec hout
  · rw [wordFault_of_illegal hdec] at h
    cases h
    exact .illegal hdec

/-- A command completes only where it has no fault. -/
theorem Completes.commandFault_eq_none {i : Instr} {s t : State} (h : Completes i s t) : commandFault i s = none := by
  cases h with
  | decode hsize => exact decodeStatus_eq_none.2 hsize
  | encode hsize hfit => exact encodeStatus_eq_none.2 ⟨hsize, hfit⟩
  | wrpix hx hin => exact wrpixStatus_eq_none.2 ⟨hx, hin⟩

/-! ### What FAULT holds -/

/-- What FAULT holds after a running block has taken a word with this fault, or with none (R18): `step_issue_fault`. -/
def faultValue : Option FaultCode → BitVec 8
  | some f => f.code
  | none => 0x00#8

theorem FaultCode.code_injective : Function.Injective FaultCode.code := by
  intro f g
  cases f <;> cases g <;> decide

/-- FAULT tells the four faults and their absence apart. -/
theorem faultValue_injective : Function.Injective faultValue := by
  rintro (_ | f) (_ | g) h
  · rfl
  · exact absurd h.symm g.code_ne_zero
  · exact absurd h f.code_ne_zero
  · exact congrArg some (FaultCode.code_injective h)

theorem faultValue_decodeStatus (n : Nat) :
    faultValue (decodeStatus n) = if n % 256 ≠ 0 then 0x02#8 else 0x00#8 := by
  split
  case isTrue hsize => rw [decodeStatus_eq_some.2 ⟨hsize, rfl⟩]; rfl
  case isFalse hsize => rw [decodeStatus_eq_none.2 (not_not.1 hsize)]; rfl

theorem faultValue_encodeStatus (size n : Nat) : faultValue (encodeStatus size n) =
    if size % 256 ≠ 0 then 0x02#8 else if n < 4 * size then 0x03#8 else 0x00#8 := by
  split
  case isTrue hsize => rw [encodeStatus_eq_some.2 (.inl ⟨hsize, rfl⟩)]; rfl
  case isFalse hsize =>
    split
    case isTrue hshort => rw [encodeStatus_eq_some.2 (.inr ⟨not_not.1 hsize, hshort, rfl⟩)]; rfl
    case isFalse hfit => rw [encodeStatus_eq_none.2 ⟨not_not.1 hsize, not_lt.1 hfit⟩]; rfl

theorem faultValue_wrpixStatus (x y n : Nat) :
    faultValue (wrpixStatus x y n) = if 128 ≤ x ∨ n ≤ y * 128 + x then 0x04#8 else 0x00#8 := by
  split
  case isTrue hout => rw [wrpixStatus_eq_some.2 ⟨hout, rfl⟩]; rfl
  case isFalse hin => rw [wrpixStatus_eq_none.2 (by omega)]; rfl

/-! ### What the step makes of a word's fault -/

/-- Fault entry at the step: FAULT, FAULT_CMD and the operation taken off the port (R88). -/
theorem step_issue_of_wordFaults {s : State} {w : CmdWord} {rest : List HostOp} {f : FaultCode} (hrun : s.fault = 0x00#8)
    (hops : s.hostOps = .issue w :: rest) (hfault : WordFaults w s f) :
    step s = .next { s with fault := f.code, faultCmd := w, hostOps := rest } :=
  (step_op hops).trans (Performs.faulted (s := s.withHostOps rest) hrun hfault.wordFault_eq).perform_eq

/-- A running block's FAULT after a word says which fault the word had, or that it had none. -/
theorem step_issue_fault {s t : State} {w : CmdWord} {rest : List HostOp} (hrun : s.fault = 0x00#8)
    (hops : s.hostOps = .issue w :: rest) (h : step s = .next t) : t.fault = faultValue (wordFault w s) := by
  cases perform_eq_next_iff.1 ((step_op hops).symm.trans h) with
  | ignored hhalt => exact absurd hrun hhalt
  | faulted _ hfault => exact (congrArg faultValue hfault).symm
  | completed _ hdec hdone =>
    have hnone : wordFault w s = none := (wordFault_of_command hdec s).trans hdone.commandFault_eq_none
    rw [hnone, hdone.registers.1]
    exact hrun

/-- The converse of `step_issue_of_wordFaults`: a code in FAULT has the word as its cause. -/
theorem wordFaults_of_step_issue {s t : State} {w : CmdWord} {rest : List HostOp} {f : FaultCode} (hrun : s.fault = 0x00#8)
    (hops : s.hostOps = .issue w :: rest) (h : step s = .next t) (hcode : t.fault = f.code) : WordFaults w s f :=
  wordFault_eq_some_iff.1 (faultValue_injective ((step_issue_fault hrun hops h).symm.trans hcode))

/-- Settles O26: the two words with the cause fault, and code 0x02 in FAULT has one of them as its cause. -/
theorem sizeNotMultipleOf256Faults : Obligations.SizeNotMultipleOf256Faults := by
  intro s w rest hrun hops
  refine ⟨fun hdec hsize => step_issue_of_wordFaults hrun hops (.rawSize hdec hsize),
    fun size hdec hsize => step_issue_of_wordFaults hrun hops (.encodeSize hdec hsize), fun t h hcode => ?_⟩
  cases wordFaults_of_step_issue (f := .invalidSize) hrun hops h hcode with
  | rawSize hdec hsize => exact .inl ⟨hdec, hsize⟩
  | encodeSize hdec hsize => exact .inr ⟨_, hdec, hsize⟩

/-- Settles O27: the one word with the cause faults, and code 0x03 in FAULT has it as its cause. -/
theorem shortSheetFaults : Obligations.ShortSheetFaults := by
  intro s w rest hrun hops
  refine ⟨fun size hdec hsize hshort => step_issue_of_wordFaults hrun hops (.shortSheet hdec hsize hshort),
    fun t h hcode => ?_⟩
  cases wordFaults_of_step_issue (f := .sheetTooShort) hrun hops h hcode with
  | shortSheet hdec hsize hshort => exact ⟨_, hdec, hsize, hshort⟩

/-- Settles O28: the one word with the cause faults, and code 0x04 in FAULT has it as its cause. -/
theorem pixelOutsideSheetFaults : Obligations.PixelOutsideSheetFaults := by
  intro s w rest hrun hops
  refine ⟨fun x y v hdec hout => step_issue_of_wordFaults hrun hops (.outside hdec hout), fun t h hcode => ?_⟩
  cases wordFaults_of_step_issue (f := .bounds) hrun hops h hcode with
  | outside hdec hout => exact ⟨_, _, _, hdec, hout⟩

/-- Settles O29: FAULT is the value of the word's fault, which the decoded command's check finds in the rule's order. -/
theorem faultsAreReportedInOrder : Obligations.FaultsAreReportedInOrder := by
  intro s w rest hrun hops
  obtain ⟨t, ht⟩ := haltedBlockRefusesWords.2 s w rest hrun hops
  have hcommand : ∀ i, decodeWord w = .command i → t.fault = faultValue (commandFault i s) := fun i hdec => by
    rw [step_issue_fault hrun hops ht, wordFault_of_command hdec]
  refine ⟨t, ht, fun why hdec => ?_, fun hdec => ?_, fun size hdec => ?_, fun x y v hdec => ?_⟩
  · rw [step_issue_fault hrun hops ht, wordFault_of_illegal hdec]; rfl
  · exact (hcommand _ hdec).trans (faultValue_decodeStatus _)
  · exact (hcommand _ hdec).trans (faultValue_encodeStatus _ _)
  · exact (hcommand _ hdec).trans (faultValue_wrpixStatus _ _ _)

/-- Settles O30: a completed command leaves FAULT at 0x00, so the step was fault entry. -/
theorem faultEntryIsPrecise : Obligations.FaultEntryIsPrecise := by
  intro s t w rest hrun hops h hne
  cases perform_eq_next_iff.1 ((step_op hops).symm.trans h) with
  | ignored hhalt => exact absurd hrun hhalt
  | faulted => rfl
  | completed _ _ hdone => exact absurd (hdone.registers.1.trans hrun) hne

/-! ### The halted state and the idle step -/

/-- Settles O32: every operation but reset keeps the fault registers of a halted block, and so does a run of them. -/
theorem onlyResetLeavesHaltedState : Obligations.OnlyResetLeavesHaltedState := by
  refine ⟨fun ops s t hhalt hreset h => performAll_registers_of_halted hhalt hreset h, fun s rest _ hops => ?_⟩
  exact ⟨_, (step_op hops).trans Performs.reset.perform_eq, rfl, rfl, rfl, rfl⟩

/-- Settles O39: the step with no operation to come is the idle step. -/
theorem idleBlockKeepsItsState : Obligations.IdleBlockKeepsItsState := fun _ => step_idle

end Sys2Proof.Machine
end

section
/-! PROOFS. Reset from every state, and a command's result as a function of the word and the readable state alone. -/

namespace Sys2Proof.Machine

/-- Settles O34: every operation but reset keeps FAULT of a halted block. -/
theorem resetClearsEverything : Obligations.ResetClearsEverything := by
  refine ⟨fun s rest hops => (step_op hops).trans Performs.reset.perform_eq, fun s t op rest hops hhalt h hclear => ?_⟩
  by_contra hop
  have hkept : t.fault = s.fault :=
    ((perform_eq_next_iff.1 ((step_op hops).symm.trans h)).registers_of_halted hhalt hop).1
  exact hhalt (hkept.symm.trans hclear)

/-! ### The host's side of the state -/

/-- `s` with another host: other operations to come and another past of readouts. -/
def State.withHostSide (s : State) (ops : List HostOp) (reads : List Readout) : State :=
  { s with hostOps := ops, readouts := reads }

@[simp] theorem State.withHostSide_readout (s : State) (ops : List HostOp) (reads : List Readout) :
    (s.withHostSide ops reads).readout = s.readout := rfl

/-- States that read the same differ in the host's side only (R12, R29). -/
theorem State.eq_withHostSide_of_readout_eq {s s' : State} (h : s.readout = s'.readout) :
    s' = s.withHostSide s'.hostOps s'.readouts := by
  obtain ⟨hraw, hsheet, hfault, hcmd, hci⟩ := State.readout_eq_iff.1 h
  exact State.ext_fields hraw.symm hsheet.symm hfault.symm hcmd.symm hci.symm rfl rfl

/-- A command neither reads nor writes the host's side (R105). -/
theorem Completes.withHostSide {i : Instr} {s t : State} (h : Completes i s t) (ops : List HostOp)
    (reads : List Readout) : Completes i (s.withHostSide ops reads) (t.withHostSide ops reads) := by
  cases h with
  | decode hsize hunit => exact .decode (s := s.withHostSide ops reads) hsize hunit
  | encode hsize hfit hunit => exact .encode (s := s.withHostSide ops reads) hsize hfit hunit
  | wrpix hx hin => exact .wrpix (s := s.withHostSide ops reads) hx hin

/-- Nor does an issued word, whether it is ignored, faults or completes. -/
theorem Performs.issue_withHostSide {w : CmdWord} {s t : State} (h : Performs (.issue w) s t) (ops : List HostOp)
    (reads : List Readout) : Performs (.issue w) (s.withHostSide ops reads) (t.withHostSide ops reads) := by
  cases h with
  | ignored hhalt => exact .ignored hhalt
  | faulted hrun hfault => exact .faulted (s := s.withHostSide ops reads) hrun hfault
  | completed hrun hdec hdone => exact .completed hrun hdec (hdone.withHostSide ops reads)

/-- Settles O48: the second state is the first with another host, and so is its next state. -/
theorem commandResultDependsOnReadableStateOnly : Obligations.CommandResultDependsOnReadableStateOnly := by
  intro s s' w rest rest' hread hops hops'
  obtain ⟨t, ht⟩ := exists_performs_issue w (s.withHostOps rest)
  have hs' : s'.withHostOps rest' = (s.withHostOps rest).withHostSide rest' s'.readouts :=
    State.eq_withHostSide_of_readout_eq (s := s.withHostOps rest) hread
  have ht' := ht.issue_withHostSide rest' s'.readouts
  rw [← hs'] at ht'
  exact ⟨t, t.withHostSide rest' s'.readouts, (step_op hops).trans ht.perform_eq, (step_op hops').trans ht'.perform_eq,
    (t.withHostSide_readout rest' s'.readouts).symm⟩

end Sys2Proof.Machine
end
